-- ==== Sys2Proof/Word.lean ====
section
/-!
DEFINITION. The word types of the block (R6, R20, R22): a byte, the 32-bit word of the checksum engine and of
every big-endian field, and the value a computed checksum is, of 40 bits or 32 (R5; `90_conflicts.md` C2).
-/

namespace Sys2Proof

/-- One byte of the stream, 8 bits (R6). -/
abbrev Byte := BitVec 8

/-- A 32-bit unsigned value: `length`, a stored checksum, the engine's register (R20, R21, R54). -/
abbrev Word := BitVec 32

/-- A value of `CCRC_WIDTH` bits, which follows the mask: 40, or 32 under the alternative (R5, R21, R22, R82). -/
inductive Checksum where
  | wide (v : BitVec 40)
  | narrow (v : BitVec 32)
  deriving DecidableEq, Repr, Inhabited

/-- The width in bits. -/
def Checksum.width : Checksum → Nat
  | .wide _ => 40
  | .narrow _ => 32

end Sys2Proof
end

