-- ==== Sys2Proof/Syntax.lean ====
section
/-!
DEFINITION. The data the block works on (tags, conditions, records) and its operations: `Instr`, one constructor
per row of `spec/opcode_table.json`.
-/

namespace Sys2Proof

/-- A type tag: four bytes, `t0` at the lowest offset (R31, R49). -/
structure Tag where
  t0 : Byte
  t1 : Byte
  t2 : Byte
  t3 : Byte
  deriving DecidableEq, Repr, Inhabited

/-- The four states of the framer (R15). -/
inductive FramerState where
  | unparsed
  | parsing
  | parsed
  | failed
  deriving DecidableEq, Repr, Inhabited

/-- The five fatal conditions (R116). `FAULT_CODE` is an `Option Condition`, its `None` being `none` (R18). -/
inductive Condition where
  | badSignature
  | truncatedChunk
  | invalidTypeTag
  | unknownChunkType
  | malformedHeaderChunk
  deriving DecidableEq, Repr, Inhabited

/-- The four property bits of a tag (R22, R24). -/
structure Props where
  ancillary  : Bool
  isPrivate  : Bool
  reserved   : Bool
  safeToCopy : Bool
  deriving DecidableEq, Repr, Inhabited

/-- The seven fields a HeaderRecord has beside those of the base record (R23). -/
structure HeaderFields where
  width             : Word
  height            : Word
  bitDepth          : Byte
  colorType         : Byte
  compressionMethod : Byte
  filterMethod      : Byte
  interlaceMethod   : Byte
  deriving DecidableEq, Repr, Inhabited

/-- Which constructor built a record (R22, R23); a header record carries its fields. -/
inductive Variant where
  | base
  | header (fields : HeaderFields)
  deriving DecidableEq, Repr, Inhabited

/-- A ChunkRecord (R22); with `variant = .header _` a HeaderRecord (R23). -/
structure Record where
  typeTag          : Tag
  props            : Props
  length           : Word
  payload          : List Byte
  storedChecksum   : Word
  computedChecksum : Checksum
  crcMismatch      : Bool
  variant          : Variant
  deriving DecidableEq, Repr, Inhabited

/-- A record constructor the registry can name (R57, R90): only the header's exists. -/
inductive RecordCtor where
  | header
  deriving DecidableEq, Repr

/-- The control and status registers the host reads (R147; the six of the table of `10_state.md` section 3). -/
inductive RegSel where
  | state
  | cursor
  | bufLen
  | chunkCount
  | faultCode
  | faultOffset
  deriving DecidableEq, Repr

/-- What the host reads with `HOST.READ`: a register, a record by index (R14, R147), a byte of the buffer (R29). -/
inductive ReadSel where
  | reg (r : RegSel)
  | record (index : Nat)
  | bufByte (offset : Nat)
  deriving DecidableEq, Repr

/-- A value `HOST.READ` gives the host (R147). -/
inductive ReadData where
  | state (v : FramerState)
  | number (v : Nat)
  | fault (v : Option Condition)
  | record (v : Record)
  | byte (v : Byte)
  deriving DecidableEq, Repr

/-- What a record operation returns (R81, R84 to R87): the four bits, the seven fields, or the record. -/
inductive OpResult where
  | props (v : Props)
  | header (v : HeaderFields)
  | record (v : Record)
  deriving DecidableEq, Repr

/-- An event of the host (R148). -/
inductive HostEvent where
  | reset
  | load (bytes : List Byte)
  | start
  | read (sel : ReadSel)
  deriving DecidableEq, Repr

/-- The operations of the block, one constructor per row of the opcode table (R64). -/
inductive Instr where
  /-- FRM.SIGCHK (R97) -/
  | frmSigchk
  /-- FRM.CHUNK (R99): its operands are the buffer from `CURSOR`, so it carries none -/
  | frmChunk
  /-- FRM.TERM (R100) -/
  | frmTerm
  /-- TAG.INVALID (R57, R122) -/
  | tagInvalid (tag : Tag)
  /-- REC.IHDR (R86) -/
  | recIhdr (tag : Tag) (length : Word) (payload : List Byte) (checksum : Word)
  /-- REC.DISPATCH (R85) -/
  | recDispatch (tag : Tag) (length : Word) (payload : List Byte) (checksum : Word)
  /-- REC.BASE (R84) -/
  | recBase (tag : Tag) (length : Word) (payload : List Byte) (checksum : Word)
  /-- REC.PROPS (R81) -/
  | recProps (tag : Tag)
  /-- REC.CCRC (R82) -/
  | recCcrc (tag : Tag) (payload : List Byte)
  /-- REC.IHDR.DECODE (R87) -/
  | recIhdrDecode (payload : List Byte)
  /-- CRC.BIT (R66) -/
  | crcBit (r poly : Word)
  /-- CRC.BYTE (R67) -/
  | crcByte (r : Word) (b : Byte) (poly : Word)
  /-- CRC.BLOCK (R68) -/
  | crcBlock (data : List Byte) (poly init : Word)
  /-- HOST.RESET (R140) -/
  | hostReset
  /-- HOST.LOAD (R143) -/
  | hostLoad (bytes : List Byte)
  /-- HOST.START (R145) -/
  | hostStart
  /-- HOST.READ (R147) -/
  | hostRead (sel : ReadSel)
  deriving DecidableEq, Repr

/-- The operation a host event is (R148). -/
def HostEvent.toInstr : HostEvent → Instr
  | .reset => .hostReset
  | .load bytes => .hostLoad bytes
  | .start => .hostStart
  | .read sel => .hostRead sel

end Sys2Proof
end

