-- ==== Sys2Proof/Config.lean ====
section
/-!
DEFINITION. The parameters of R5: the constants, the switches as fields of `Config`, the value this hardware takes
(`Config.current`), and the free values of host reads that name nothing (log entry 9).
-/

namespace Sys2Proof

/-- `CRC_FINAL_MASK`: the observed 40-bit mask, or the 32-bit complement the source allows (R5, R82, D7). -/
inductive FinalMask where
  | ones40
  | ones32
  deriving DecidableEq, Repr

/-- `UNKNOWN_POLICY` (R5, R85, D8). -/
inductive UnknownPolicy where
  | fatal
  | base
  deriving DecidableEq, Repr

/-- `TAG_CHARSET` (R5, R99, D9). -/
inductive TagCharset where
  | ascii7
  | letters
  deriving DecidableEq, Repr

/-- The parameters of R5 that have an alternative or are open; `none` in `aw` and `maxChunks` is "unbounded". -/
structure Config where
  finalMask     : FinalMask
  unknownPolicy : UnknownPolicy
  tagCharset    : TagCharset
  ihdrStrictLen : Bool
  registry      : List (Tag × RecordCtor)
  aw            : Option Nat
  maxChunks     : Option Nat
  deriving DecidableEq, Repr

namespace Config

/-- The registry key "IHDR" (R57). -/
def keyIhdr : Tag := ⟨0x49, 0x48, 0x44, 0x52⟩

/-- `REGISTRY` has one entry (R5, R90). -/
def oneEntryRegistry : List (Tag × RecordCtor) := [(keyIhdr, .header)]

/-- The values this hardware takes (R5, column "value"); log entries 2, 3 and 11. -/
def current : Config where
  finalMask := .ones40
  unknownPolicy := .fatal
  tagCharset := .ascii7
  ihdrStrictLen := false
  registry := oneEntryRegistry
  aw := none
  maxChunks := none

/-- `CRC_POLY` (R5). -/
def crcPoly : Word := 0xEDB88320

/-- `CRC_INIT` (R5). -/
def crcInit : Word := 0xFFFFFFFF

/-- `SIG` (R46). -/
def sig : List Byte := [0x89, 0x50, 0x4E, 0x47, 0x0D, 0x0A, 0x1A, 0x0A]

/-- `SIG_LEN` (R5). -/
def sigLen : Nat := 8

/-- `CHUNK_OVERHEAD` (R5): length, type and checksum with no payload. -/
def chunkOverhead : Nat := 12

/-- `IHDR_LEN` (R5). -/
def ihdrLen : Nat := 13

/-- The free value of a `HOST.READ` of a byte of the buffer that does not exist (log entry 9). -/
opaque freeByte : Nat → Byte

/-- The free value of a `HOST.READ` of a record that does not exist (log entry 9). -/
opaque freeRecord : Nat → Record

end Config

/-- The bits of `CRC_FINAL_MASK`, as many as it has (R5, R82). -/
def FinalMask.bits : FinalMask → Checksum
  | .ones40 => .wide 0xFFFFFFFFFF
  | .ones32 => .narrow 0xFFFFFFFF

/-- `CCRC_WIDTH` follows `CRC_FINAL_MASK` (R5). -/
def Config.ccrcWidth (cfg : Config) : Nat := cfg.finalMask.bits.width

/-- What `CCRC` holds at reset: zero, in the register's width (log entry 1). -/
def Config.ccrcReset (cfg : Config) : Checksum :=
  match cfg.finalMask with
  | .ones40 => .wide 0
  | .ones32 => .narrow 0

/-- Whether `n` bytes can be loaded: `AW` bits hold the count (R143). -/
def Config.fits (cfg : Config) (n : Nat) : Bool :=
  match cfg.aw with
  | none => true
  | some w => decide (n < 2 ^ w)

/-- Whether `chunks` is full (R99, U8). -/
def Config.full (cfg : Config) (count : Nat) : Bool :=
  match cfg.maxChunks with
  | none => false
  | some m => decide (m ≤ count)

end Sys2Proof
end

