-- ==== Sys2Proof/Decode.lean ====
section
/-!
DEFINITION. The stream's decoder and encoder (`30_encoding.md`): big-endian fields, upper-casing, the tag classes,
the formats SIG, CHUNK and IHDR, and the operation a word of the opcode table stands for.
-/

namespace Sys2Proof

/-- `be32` of four bytes, the first the most significant (R6, R31). -/
def be32 (b0 b1 b2 b3 : Byte) : Word :=
  BitVec.ofNat 32 (b0.toNat * 2 ^ 24 + b1.toNat * 2 ^ 16 + b2.toNat * 2 ^ 8 + b3.toNat)

/-- The four bytes of a big-endian field (R31). -/
def be32Bytes (w : Word) : List Byte :=
  [BitVec.ofNat 8 (w.toNat / 2 ^ 24), BitVec.ofNat 8 (w.toNat / 2 ^ 16),
   BitVec.ofNat 8 (w.toNat / 2 ^ 8), BitVec.ofNat 8 w.toNat]

/-- `be32` of a byte sequence of four bytes (R6). -/
def be32List : List Byte → Option Word
  | [b0, b1, b2, b3] => some (be32 b0 b1 b2 b3)
  | _ => none

/-- A tag from a byte sequence of four bytes (R47). -/
def tagOfList : List Byte → Option Tag
  | [b0, b1, b2, b3] => some ⟨b0, b1, b2, b3⟩
  | _ => none

/-- The bytes of a tag, in stream order (R31). -/
def Tag.bytes (t : Tag) : List Byte := [t.t0, t.t1, t.t2, t.t3]

/-- `T = be32(type)` (R57). -/
def Tag.word (t : Tag) : Word := be32 t.t0 t.t1 t.t2 t.t3

/-- `upper` (R56). -/
def upper (b : Byte) : Byte := if 0x61 ≤ b ∧ b ≤ 0x7A then b - 0x20 else b

/-- The dispatch key of a tag (R55). -/
def Tag.key (t : Tag) : Tag := ⟨upper t.t0, upper t.t1, upper t.t2, upper t.t3⟩

/-- Whether a byte may stand in a tag (R99, `tag_valid`). -/
def tagByteValid : TagCharset → Byte → Bool
  | .ascii7, b => decide (b ≤ 0x7F)
  | .letters, b => decide (0x41 ≤ b ∧ b ≤ 0x5A) || decide (0x61 ≤ b ∧ b ≤ 0x7A)

/-- `tag_valid(TAG)` (R99). -/
def tagValid (cs : TagCharset) (t : Tag) : Bool :=
  tagByteValid cs t.t0 && tagByteValid cs t.t1 && tagByteValid cs t.t2 && tagByteValid cs t.t3

/-- The registry's entry for a key (R85). -/
def lookupCtor : List (Tag × RecordCtor) → Tag → Option RecordCtor
  | [], _ => none
  | (k, c) :: rest, t => if k = t then some c else lookupCtor rest t

/-- The tag classes of R57, in the order of their tests. -/
inductive TagClass where
  | invalid
  | known (c : RecordCtor)
  | unknown
  deriving DecidableEq, Repr

/-- The class of a tag (R57). -/
def classify (cfg : Config) (t : Tag) : TagClass :=
  if tagValid cfg.tagCharset t then
    match lookupCtor cfg.registry t.key with
    | some c => .known c
    | none => .unknown
  else .invalid

/-- What the decoder answers: the operation and the bytes after its element, the condition by whose name the bytes
are rejected, or that no format applies in this state. -/
inductive Decoded where
  | op (i : Instr) (rest : List Byte)
  | reject (c : Condition)
  | idle
  deriving DecidableEq, Repr

/-- Format SIG (R46, R57). -/
def decodeSig (bytes : List Byte) : Decoded :=
  if bytes.take Config.sigLen = Config.sig then .op .frmSigchk (bytes.drop Config.sigLen)
  else .reject .badSignature

/-- The row of format CHUNK.type that a tag selects, with the fields of its chunk as operands (R57). -/
def decodeTag (cfg : Config) (tag : Tag) (length : Word) (payload : List Byte) (checksum : Word) : Instr :=
  match classify cfg tag with
  | .invalid => .tagInvalid tag
  | .known .header => .recIhdr tag length payload checksum
  | .unknown => .recDispatch tag length payload checksum

/-- Format CHUNK after its length and type (R47), in the order of R124: an invalid tag first, then too few bytes. The
element is `12 + length` bytes whatever its tag is (R53). -/
def decodeBody (cfg : Config) (length : Word) (tag : Tag) (after : List Byte) : Decoded :=
  if classify cfg tag = .invalid then .op (.tagInvalid tag) (after.drop (length.toNat + 4))
  else
    let payload := after.take length.toNat
    match after.drop length.toNat with
    | c0 :: c1 :: c2 :: c3 :: rest => .op (decodeTag cfg tag length payload (be32 c0 c1 c2 c3)) rest
    | _ => .reject .truncatedChunk

/-- Format CHUNK (R47, R53). Fewer than 12 bytes are no element (R59 (f)). -/
def decodeChunk (cfg : Config) (bytes : List Byte) : Decoded :=
  if bytes.length < Config.chunkOverhead then .reject .truncatedChunk
  else
    match bytes with
    | l0 :: l1 :: l2 :: l3 :: t0 :: t1 :: t2 :: t3 :: after =>
      decodeBody cfg (be32 l0 l1 l2 l3) ⟨t0, t1, t2, t3⟩ after
    | _ => .reject .truncatedChunk

/-- The decoder: the format is chosen by the framer's state alone, never by the bytes (R45); no bytes left is the
end of the stream (R100). -/
def decode (cfg : Config) : FramerState → List Byte → Decoded
  | .unparsed, bytes => decodeSig bytes
  | .parsing, [] => .op .frmTerm []
  | .parsing, b :: bs => decodeChunk cfg (b :: bs)
  | .parsed, _ => .idle
  | .failed, _ => .idle

/-- The first thirteen bytes of a header payload as its seven fields (R52). -/
def ihdrFields : List Byte → Option HeaderFields
  | w0 :: w1 :: w2 :: w3 :: h0 :: h1 :: h2 :: h3 :: d :: c :: m :: f :: i :: _ =>
    some ⟨be32 w0 w1 w2 w3, be32 h0 h1 h2 h3, d, c, m, f, i⟩
  | _ => none

/-- `decode_ihdr` (R87): none is `MalformedHeaderChunk`. -/
def decodeIhdr (cfg : Config) (payload : List Byte) : Option HeaderFields :=
  if cfg.ihdrStrictLen && payload.length != Config.ihdrLen then none else ihdrFields payload

/-- The thirteen bytes of the payload format IHDR (R52). -/
def encodeIhdr (h : HeaderFields) : List Byte :=
  be32Bytes h.width ++ be32Bytes h.height ++
    [h.bitDepth, h.colorType, h.compressionMethod, h.filterMethod, h.interlaceMethod]

/-- Format CHUNK of four fields (R47). -/
def encodeChunk (length : Word) (tag : Tag) (payload : List Byte) (checksum : Word) : List Byte :=
  be32Bytes length ++ tag.bytes ++ payload ++ be32Bytes checksum

/-- `enc(r)`: the CHUNK layout of a record's four stored fields (R102). -/
def encodeRecord (r : Record) : List Byte :=
  encodeChunk r.length r.typeTag r.payload r.storedChecksum

/-- The framer state in which an operation is decoded (R45); for one that is not, the state that runs it. -/
def decodedIn : Instr → FramerState
  | .frmSigchk => .unparsed
  | .frmChunk => .parsing
  | .frmTerm => .parsing
  | .tagInvalid _ => .parsing
  | .recIhdr _ _ _ _ => .parsing
  | .recDispatch _ _ _ _ => .parsing
  | .recBase _ _ _ _ => .parsing
  | .recProps _ => .parsing
  | .recCcrc _ _ => .parsing
  | .recIhdrDecode _ => .parsing
  | .crcBit _ _ => .parsing
  | .crcByte _ _ _ => .parsing
  | .crcBlock _ _ _ => .parsing
  | .hostReset => .unparsed
  | .hostLoad _ => .unparsed
  | .hostStart => .unparsed
  | .hostRead _ => .unparsed

/-- The encoder: the stream bytes that select an operation; none where the table gives no bit pattern (R64). The
bytes of `FRM.CHUNK` are those of the operation its tag selects. -/
def encode : Instr → Option (List Byte)
  | .frmSigchk => some Config.sig
  | .frmChunk => none
  | .frmTerm => some []
  | .tagInvalid tag => some (encodeChunk 0 tag [] 0)
  | .recIhdr tag len payload crc => some (encodeChunk len tag payload crc)
  | .recDispatch tag len payload crc => some (encodeChunk len tag payload crc)
  | .recBase _ _ _ _ => none
  | .recProps _ => none
  | .recCcrc _ _ => none
  | .recIhdrDecode _ => none
  | .crcBit _ _ => none
  | .crcByte _ _ _ => none
  | .crcBlock _ _ _ => none
  | .hostReset => none
  | .hostLoad _ => none
  | .hostStart => none
  | .hostRead _ => none

/-- The `n` bytes of a number, the most significant first (R31). -/
def beBytes : Nat → Nat → List Byte
  | 0, _ => []
  | n + 1, w => BitVec.ofNat 8 (w / 2 ^ (8 * n)) :: beBytes n w

/-- The stream bytes of a word of the opcode table (log entry 13): a 32-bit word is the tag `T` of format CHUNK.type
(R57), the other fields of its chunk being zero; any other word is the element itself. -/
def tableWordBytes (nbits w : Nat) : List Byte :=
  if nbits = 32 then beBytes 4 0 ++ beBytes 4 w ++ beBytes 4 0 else beBytes (nbits / 8) w

/-- The framer state in which a word of the opcode table is met: 64 bits are the signature (R46). -/
def tableWordState (nbits : Nat) : FramerState :=
  if nbits = 64 then .unparsed else .parsing

/-- The number of bytes of a CHUNK, learnt from its first four (R53). -/
def chunkBytes : List Byte → Option Nat
  | l0 :: l1 :: l2 :: l3 :: _ => some (Config.chunkOverhead + (be32 l0 l1 l2 l3).toNat)
  | _ => none

/-- The operation this decoder reads from a word of the opcode table (log entry 13). A whole CHUNK, whatever its tag, is
a word of the row FRM.CHUNK, which has no fixed bits (R64). -/
def decodeTableWord (nbits w : Nat) : Option Instr :=
  match decode Config.current (tableWordState nbits) (tableWordBytes nbits w) with
  | .op i _ =>
    if nbits = 0 ∨ nbits = 32 ∨ nbits = 64 then some i
    else if chunkBytes (tableWordBytes nbits w) = some (nbits / 8) then some .frmChunk
    else none
  | .reject _ => none
  | .idle => none

end Sys2Proof
end

