-- ==== Sys2Proof/Machine/State.lean ====
section
/-!
DEFINITION. The state (R11): the eight architectural elements, the five working registers, and four fields of the
model's own; the reasons a step can stop; the state after reset (R28).
-/

namespace Sys2Proof.Machine

/-- The buffer's cells, addresses strictly rising. An unlisted address holds no byte: offsets at or beyond `BUF_LEN`
do not exist (R12; log entry 10). -/
abbrev Memory := List Host.Cell

/-- What an address with no cell reads as: nothing (log entry 10). -/
def Memory.unlisted (_ : Nat) : Option Byte := none

/-- The canonical form of memory: addresses strictly rise, and no cell holds what an unlisted address reads as. -/
def Memory.wf : Memory → Bool
  | [] => true
  | [(a, b)] => Memory.unlisted a != some b
  | (a, b) :: (a', b') :: rest =>
    decide (a < a') && (Memory.unlisted a != some b) && Memory.wf ((a', b') :: rest)

/-- The faults of the model. None is a condition of the block: those are next states (R119). -/
inductive Fault where
  /-- Raised by `MemRead` outside the buffer (R33); no run reaches it. Safe: the model stops. -/
  | memReadOutOfRange
  deriving DecidableEq, Repr

/-- The refusals of the model. -/
inductive Refusal where
  /-- An instruction with no meaning yet, by its mnemonic; raised by `exec` only. Safe. -/
  | notModelled (mnemonic : String)
  /-- Raised by `FRM.CHUNK` when `MAX_CHUNKS` is finite and reached, where the spec defines nothing (R99, U8); never
  under `Config.current`. Safe. -/
  | chunksFull
  /-- Raised by `HOST.LOAD` when `AW` is finite and does not hold the count, an input the spec excludes (R143); never
  under `Config.current`. Safe. -/
  | loadTooLong
  deriving DecidableEq, Repr

/-- The state of the block, and the inputs it has yet to receive. -/
structure State where
  /-- `BUF` (R12) -/
  buf         : Memory
  /-- `BUF_LEN` (R13) -/
  bufLen      : Nat
  /-- `STATE` (R15) -/
  state       : FramerState
  /-- `CURSOR` (R16) -/
  cursor      : Nat
  /-- `chunks` (R14) -/
  chunks      : List Record
  /-- `CHUNK_COUNT` (R17) -/
  chunkCount  : Nat
  /-- `FAULT_CODE` (R18) -/
  faultCode   : Option Condition
  /-- `FAULT_OFFSET` (R19) -/
  faultOffset : Nat
  /-- `LEN` (R21) -/
  len         : Word
  /-- `TAG` (R21) -/
  tag         : Tag
  /-- `SCRC` (R21) -/
  scrc        : Word
  /-- `CRC_REG` (R20) -/
  crcReg      : Word
  /-- `CCRC` (R21) -/
  ccrc        : Checksum
  /-- the model's own: what the last record operation returned (log entry 8) -/
  result      : Option OpResult
  /-- the model's own: what the last `HOST.READ` gave the host (log entry 9) -/
  readData    : Option ReadData
  /-- the model's own: the index of the next free value (log entry 9) -/
  freeIndex   : Nat
  /-- the model's own: what the host does at the coming steps, `none` being nothing (log entry 4) -/
  host        : List (Option HostEvent)
  deriving DecidableEq, Repr

/-- The architectural state (R11): what the working registers and the model's own fields are not. -/
structure Arch where
  buf         : Memory
  bufLen      : Nat
  state       : FramerState
  cursor      : Nat
  chunks      : List Record
  chunkCount  : Nat
  faultCode   : Option Condition
  faultOffset : Nat
  deriving DecidableEq, Repr

/-- The architectural part of a state (R11). -/
def State.arch (s : State) : Arch where
  buf := s.buf
  bufLen := s.bufLen
  state := s.state
  cursor := s.cursor
  chunks := s.chunks
  chunkCount := s.chunkCount
  faultCode := s.faultCode
  faultOffset := s.faultOffset

/-- The state after reset (R28); the working registers and the model's own fields as log entries 1, 4, 8, 9 say. -/
def State.reset : State where
  buf := []
  bufLen := 0
  state := .unparsed
  cursor := 0
  chunks := []
  chunkCount := 0
  faultCode := none
  faultOffset := 0
  len := 0
  tag := ⟨0, 0, 0, 0⟩
  scrc := 0
  crcReg := 0
  ccrc := .wide 0
  result := none
  readData := none
  freeIndex := 0
  host := []

/-- The state after reset of a machine with other parameters (R5): `CCRC` has their width. -/
def State.resetWith (cfg : Config) : State := { State.reset with ccrc := cfg.ccrcReset }

end Sys2Proof.Machine
end

