-- ==== Sys2Proof/Machine/Ops.lean ====
section
/-!
DEFINITION. The named operations over the buffer and the registers: `MemRead` (R33), loading, the remaining count
(R98), the failure transition (R119), appending and advancing (R99 (e), (f)), the register codes (R15, R18).
-/

namespace Sys2Proof.Machine

/-- The byte at an address of the buffer, if there is one. -/
def Memory.read : Memory → Nat → Option Byte
  | [], a => Memory.unlisted a
  | (a', b) :: rest, a => if a' = a then some b else Memory.read rest a

/-- Cells for a byte sequence, from an address on. -/
def Memory.ofBytesAt : Nat → List Byte → Memory
  | _, [] => []
  | a, b :: bs => (a, b) :: Memory.ofBytesAt (a + 1) bs

/-- `BUF <- bytes` (R143). -/
def Memory.ofBytes (bytes : List Byte) : Memory := Memory.ofBytesAt 0 bytes

/-- The bytes of the buffer in order of offset. -/
def Memory.bytes (m : Memory) : List Byte := m.map Prod.snd

/-- `n` bytes from an address on, if all are there. -/
def Memory.readBytes (m : Memory) : Nat → Nat → Option (List Byte)
  | _, 0 => some []
  | a, n + 1 =>
    match m.read a, m.readBytes (a + 1) n with
    | some b, some bs => some (b :: bs)
    | _, _ => none

/-- `MemRead(addr, n)` (R33): defined when `addr + n <= BUF_LEN`. -/
def memRead (s : State) (addr n : Nat) : Option (List Byte) :=
  if addr + n ≤ s.bufLen then s.buf.readBytes addr n else none

/-- `rem` (R98). -/
def State.rem (s : State) : Nat := s.bufLen - s.cursor

/-- The bytes from `CURSOR` to the end of the buffer: what the framer has yet to decode. -/
def State.remaining (s : State) : List Byte := s.buf.bytes.drop s.cursor

/-- The failure transition (R119): THE way a condition is taken, shared by every operation that raises one. There is
no return from it (R126): only `HOST.RESET` leaves `Failed`. -/
def raise (c : Condition) (s : State) : State :=
  { s with faultCode := some c, faultOffset := s.cursor, chunks := [], chunkCount := 0, state := .failed }

/-- `raise` inside an operation that `FRM.CHUNK` calls: it is part of a framer step, and there is one only in
`Parsing` (R95, R96; log entry 6). -/
def raiseInChunk (c : Condition) (s : State) : State :=
  if s.state = .parsing then raise c s else s

/-- `LEN`, `TAG` and `SCRC` take a chunk's slices (R21, R80). -/
def State.setSlices (s : State) (tag : Tag) (length checksum : Word) : State :=
  { s with len := length, tag := tag, scrc := checksum }

/-- `LEN` and `TAG` take the first two slices (R99 (a), (b)). -/
def State.setHead (s : State) (length : Word) (tag : Tag) : State := { s with len := length, tag := tag }

/-- `TAG` takes a tag. -/
def State.setTag (s : State) (tag : Tag) : State := { s with tag := tag }

/-- `CRC_REG` takes an engine's result (R20). -/
def State.setCrcReg (s : State) (r : Word) : State := { s with crcReg := r }

/-- `CRC_REG` and `CCRC` take the raw and the masked checksum (R82). -/
def State.setSums (s : State) (raw : Word) (masked : Checksum) : State := { s with crcReg := raw, ccrc := masked }

/-- What a record operation returns (log entry 8). -/
def State.setResult (s : State) (r : Option OpResult) : State := { s with result := r }

/-- The value a read gives the host (R147). -/
def State.setReadData (s : State) (d : ReadData) : State := { s with readData := some d }

/-- The next free value is another one (log entry 9). -/
def State.takeFree (s : State) : State := { s with freeIndex := s.freeIndex + 1 }

/-- What the host has yet to do (log entry 4). -/
def State.setHost (s : State) (h : List (Option HostEvent)) : State := { s with host := h }

/-- `append(chunks, rec)`, the count, and the advance past the chunk (R99 (e), (f)). -/
def appendAdvance (r : Record) (s : State) : State :=
  { s with
    chunks := s.chunks ++ [r]
    chunkCount := s.chunkCount + 1
    cursor := s.cursor + Config.chunkOverhead + s.len.toNat }

/-- `BUF <- bytes; BUF_LEN <- n` (R143). -/
def State.loadBytes (s : State) (bytes : List Byte) : State :=
  { s with buf := Memory.ofBytes bytes, bufLen := bytes.length }

/-- The number of a framer state (R15). -/
def stateCode : FramerState → BitVec 2
  | .unparsed => 0
  | .parsing => 1
  | .parsed => 2
  | .failed => 3

/-- The number of a fault code (R18, R116). -/
def faultBits : Option Condition → BitVec 3
  | none => 0
  | some .badSignature => 1
  | some .truncatedChunk => 2
  | some .invalidTypeTag => 3
  | some .unknownChunkType => 4
  | some .malformedHeaderChunk => 5

/-- The end of a run (R104): also the `done` wire a platform may derive from `STATE[1]` (R129). -/
def State.done (s : State) : Bool := (stateCode s.state).getLsbD 1

/-- The operation the framer performs by itself (R96): none but in `Parsing`. -/
def nextOp (s : State) : Option Instr :=
  match s.state with
  | .parsing => if s.rem = 0 then some .frmTerm else some .frmChunk
  | .unparsed => none
  | .parsed => none
  | .failed => none

end Sys2Proof.Machine
end

