-- ==== Sys2Proof/Machine/Operands.lean ====
section
/-!
DEFINITION. The operand forms: the five units in which the framer reads the buffer (R35), and what a `HOST.READ`
selects (R147).
-/

namespace Sys2Proof.Machine

/-- The signature's bytes (R35, R97). -/
def readSig (s : State) : Option (List Byte) := memRead s 0 Config.sigLen

/-- The length field of the chunk at `c`, big-endian (R35, R99 (a)). -/
def readLength (s : State) (c : Nat) : Option Word := (memRead s c 4).bind be32List

/-- The type tag of the chunk at `c`, as bytes (R35, R99 (b)). -/
def readTag (s : State) (c : Nat) : Option Tag := (memRead s (c + 4) 4).bind tagOfList

/-- The payload of the chunk at `c` (R35, R99 (c)). -/
def readPayload (s : State) (c n : Nat) : Option (List Byte) := memRead s (c + 8) n

/-- The stored checksum of the chunk at `c`, big-endian (R35, R99 (d)). -/
def readStored (s : State) (c n : Nat) : Option Word := (memRead s (c + 8 + n) 4).bind be32List

/-- The value of a control or status register (R147). -/
def readReg (s : State) : RegSel → ReadData
  | .state => .state s.state
  | .cursor => .number s.cursor
  | .bufLen => .number s.bufLen
  | .chunkCount => .number s.chunkCount
  | .faultCode => .fault s.faultCode
  | .faultOffset => .number s.faultOffset

/-- The record at an index, the host's being 0 to `CHUNK_COUNT - 1` (R14). -/
def readRecord (s : State) (index : Nat) : Option Record := s.chunks[index]?

/-- The byte of the buffer at an offset; those at or beyond `BUF_LEN` do not exist (R12). -/
def readByte (s : State) (offset : Nat) : Option Byte :=
  if offset < s.bufLen then s.buf.read offset else none

end Sys2Proof.Machine
end

