-- ==== Sys2Proof/Machine/Engine.lean ====
section
/-!
DEFINITION. The checksum engine (`40_checksum_engine.md`): its three operations, the table-driven form (R70), and
the meanings of the rows CRC.BIT, CRC.BYTE, CRC.BLOCK. The engine raises nothing and inverts nothing (R65, R69).
-/

namespace Sys2Proof.Machine

/-- `crc_bit` (R66). -/
def crcBit (r poly : Word) : Word :=
  if r.getLsbD 0 then (r >>> 1) ^^^ poly else r >>> 1

/-- `crc_bit` applied `n` times. -/
def crcBits : Nat → Word → Word → Word
  | 0, r, _ => r
  | n + 1, r, poly => crcBits n (crcBit r poly) poly

/-- `crc_byte` (R67). -/
def crcByte (r : Word) (b : Byte) (poly : Word) : Word :=
  crcBits 8 (r ^^^ b.setWidth 32) poly

/-- `crc(data, poly, init)` (R68): the raw engine output. -/
def crcBlock : List Byte → Word → Word → Word
  | [], _, init => init
  | b :: bs, poly, init => crcBlock bs poly (crcByte init b poly)

/-- The table entry `T[i]` (R70). -/
def crcTable (poly : Word) (i : Byte) : Word := crcByte 0 i poly

/-- The table-driven form of `crc_byte` (R70). -/
def crcByteByTable (r : Word) (b : Byte) (poly : Word) : Word :=
  crcTable poly ((r ^^^ b.setWidth 32).setWidth 8) ^^^ (r >>> 8)

/-- The inverse of `crc_bit` for a polynomial whose bit 31 is 1 (R66). -/
def crcBitInverse (y poly : Word) : Word :=
  ((y ^^^ if y.getLsbD 31 then poly else 0) <<< 1) ||| (if y.getLsbD 31 then 1 else 0)

/-- CRC.BIT (R66); the result stands in `CRC_REG` (log entry 8). -/
def execCrcBit (r poly : Word) (s : State) : Host.Outcome State Fault Refusal :=
  .next (s.setCrcReg (crcBit r poly))

/-- CRC.BYTE (R67). -/
def execCrcByte (r : Word) (b : Byte) (poly : Word) (s : State) : Host.Outcome State Fault Refusal :=
  .next (s.setCrcReg (crcByte r b poly))

/-- CRC.BLOCK (R68). -/
def execCrcBlock (data : List Byte) (poly init : Word) (s : State) : Host.Outcome State Fault Refusal :=
  .next (s.setCrcReg (crcBlock data poly init))

end Sys2Proof.Machine
end

