-- ==== Sys2Proof/Machine/Flags.lean ====
section
/-!
DEFINITION. The flags: the four property bits of a tag (R24, R81) and `crc_mismatch` (R25). Every flag of the block
is a field of a record; there are no global ones.
-/

namespace Sys2Proof.Machine

/-- The property bit of a tag byte: bit 5 (R49, R54). -/
def propertyBit (b : Byte) : Bool := b.getLsbD 5

/-- The four property bits, of the tag as read (R81). -/
def propsOf (t : Tag) : Props :=
  ⟨propertyBit t.t0, propertyBit t.t1, propertyBit t.t2, propertyBit t.t3⟩

/-- `crc_mismatch` (R25): against the 40-bit value the stored checksum is zero-extended, against the 32-bit one it is
compared as it is. -/
def crcMismatch (stored : Word) : Checksum → Bool
  | .wide v => stored.setWidth 40 != v
  | .narrow v => stored != v

end Sys2Proof.Machine
end

