-- ==== Sys2Proof/Machine/Records.lean ====
section
/-!
DEFINITION. Building records and dispatching on the tag (`41_chunk_record.md`): the record operations as functions
of a configuration, and the meanings of the rows TAG.INVALID and REC.*.
-/

namespace Sys2Proof.Machine

/-- The raw engine output over a chunk: tag, then payload (R82). -/
def rawChecksum (tag : Tag) (payload : List Byte) : Word :=
  crcBlock (tag.bytes ++ payload) Config.crcPoly Config.crcInit

/-- The final XOR of the record-level invocation, in the mask's own width (R82). -/
def maskChecksum (cfg : Config) (raw : Word) : Checksum :=
  match cfg.finalMask.bits with
  | .wide mask => .wide (raw.setWidth 40 ^^^ mask)
  | .narrow mask => .narrow (raw ^^^ mask)

/-- `REC.CCRC` as a function (R82). -/
def computedChecksum (cfg : Config) (tag : Tag) (payload : List Byte) : Checksum :=
  maskChecksum cfg (rawChecksum tag payload)

/-- The base record with a given computed checksum (R84). -/
def baseRecord (tag : Tag) (length : Word) (payload : List Byte) (checksum : Word) (computed : Checksum) : Record where
  typeTag := tag
  props := propsOf tag
  length := length
  payload := payload
  storedChecksum := checksum
  computedChecksum := computed
  crcMismatch := crcMismatch checksum computed
  variant := .base

/-- A record made a HeaderRecord (R86). -/
def headerRecord (r : Record) (h : HeaderFields) : Record := { r with variant := .header h }

/-- `make_chunk` with a given computed checksum (R85): a record, or the condition it raises. -/
def makeChunk (cfg : Config) (tag : Tag) (length : Word) (payload : List Byte) (checksum : Word)
    (computed : Checksum) : Except Condition Record :=
  match lookupCtor cfg.registry tag.key with
  | some .header =>
    match decodeIhdr cfg payload with
    | some h => .ok (headerRecord (baseRecord tag length payload checksum computed) h)
    | none => .error .malformedHeaderChunk
  | none =>
    match cfg.unknownPolicy with
    | .fatal => .error .unknownChunkType
    | .base => .ok (baseRecord tag length payload checksum computed)

/-- `REC.PROPS` (R81). -/
def recProps (tag : Tag) (s : State) : State := s.setResult (some (.props (propsOf tag)))

/-- `REC.CCRC` (R82): the raw output in `CRC_REG`, the masked one in `CCRC`. -/
def recCcrc (cfg : Config) (tag : Tag) (payload : List Byte) (s : State) : State :=
  s.setSums (rawChecksum tag payload) (computedChecksum cfg tag payload)

/-- `REC.BASE` (R84): the slices in their registers (R80), the checksum computed, the record returned. -/
def recBase (cfg : Config) (tag : Tag) (length : Word) (payload : List Byte) (checksum : Word) (s : State) : State :=
  (recCcrc cfg tag payload (s.setSlices tag length checksum)).setResult
    (some (.record (baseRecord tag length payload checksum (computedChecksum cfg tag payload))))

/-- `decode_ihdr` (R87): the seven fields, or the condition; a failure returns nothing. -/
def recIhdrDecode (cfg : Config) (payload : List Byte) (s : State) : State :=
  match decodeIhdr cfg payload with
  | some h => s.setResult (some (.header h))
  | none => raiseInChunk .malformedHeaderChunk (s.setResult none)

/-- `REC.IHDR` (R86): the base record, then the header's decode; a failure returns no record. -/
def recIhdr (cfg : Config) (tag : Tag) (length : Word) (payload : List Byte) (checksum : Word) (s : State) : State :=
  match decodeIhdr cfg payload with
  | some h =>
    (recBase cfg tag length payload checksum s).setResult
      (some (.record (headerRecord (baseRecord tag length payload checksum (computedChecksum cfg tag payload)) h)))
  | none => raiseInChunk .malformedHeaderChunk ((recBase cfg tag length payload checksum s).setResult none)

/-- `REC.DISPATCH` (R85): an unknown tag raises before any record is built and any checksum computed. -/
def recDispatch (cfg : Config) (tag : Tag) (length : Word) (payload : List Byte) (checksum : Word) (s : State) :
    State :=
  match lookupCtor cfg.registry tag.key with
  | some .header => recIhdr cfg tag length payload checksum s
  | none =>
    match cfg.unknownPolicy with
    | .fatal => raiseInChunk .unknownChunkType ((s.setSlices tag length checksum).setResult none)
    | .base => recBase cfg tag length payload checksum s

/-- `TAG.INVALID` (R57, R99 (b), R122): raised exactly when some byte is not a tag byte. -/
def tagInvalid (cfg : Config) (tag : Tag) (s : State) : State :=
  if tagValid cfg.tagCharset tag then s.setTag tag else raiseInChunk .invalidTypeTag (s.setTag tag)

/-- TAG.INVALID (R122). -/
def execTagInvalid (tag : Tag) (s : State) : Host.Outcome State Fault Refusal :=
  .next (tagInvalid Config.current tag s)

/-- REC.IHDR (R86). -/
def execRecIhdr (tag : Tag) (length : Word) (payload : List Byte) (checksum : Word) (s : State) :
    Host.Outcome State Fault Refusal :=
  .next (recIhdr Config.current tag length payload checksum s)

/-- REC.DISPATCH (R85). -/
def execRecDispatch (tag : Tag) (length : Word) (payload : List Byte) (checksum : Word) (s : State) :
    Host.Outcome State Fault Refusal :=
  .next (recDispatch Config.current tag length payload checksum s)

/-- REC.BASE (R84). -/
def execRecBase (tag : Tag) (length : Word) (payload : List Byte) (checksum : Word) (s : State) :
    Host.Outcome State Fault Refusal :=
  .next (recBase Config.current tag length payload checksum s)

/-- REC.PROPS (R81). -/
def execRecProps (tag : Tag) (s : State) : Host.Outcome State Fault Refusal :=
  .next (recProps tag s)

/-- REC.CCRC (R82). -/
def execRecCcrc (tag : Tag) (payload : List Byte) (s : State) : Host.Outcome State Fault Refusal :=
  .next (recCcrc Config.current tag payload s)

/-- REC.IHDR.DECODE (R87). -/
def execRecIhdrDecode (payload : List Byte) (s : State) : Host.Outcome State Fault Refusal :=
  .next (recIhdrDecode Config.current payload s)

end Sys2Proof.Machine
end

