-- ==== Sys2Proof/Machine/Framer.lean ====
section
/-!
DEFINITION. The container framer (`42_container_framer.md`): the signature check, the chunk step and termination as
functions of a configuration, and the meanings of the rows FRM.*. A step that is not enabled changes nothing (log
entry 6).
-/

namespace Sys2Proof.Machine

/-- The signature check (R97). -/
def sigCheck (s : State) : Host.Outcome State Fault Refusal :=
  if s.state = .unparsed then
    if s.bufLen < Config.sigLen then .next (raise .badSignature s)
    else
      match readSig s with
      | none => .fault .memReadOutOfRange
      | some bytes =>
        if bytes = Config.sig then .next { s with cursor := Config.sigLen, state := .parsing }
        else .next (raise .badSignature s)
  else .next s

/-- The record a dispatch returned is appended and the cursor advanced; a raised condition returned none (R99 (e),
(f)). -/
def acceptRecord (s : State) : State :=
  match s.result with
  | some (.record r) => appendAdvance r s
  | some (.props _) => s
  | some (.header _) => s
  | none => s

/-- The chunk step from test (b) on, with `LEN` and `TAG` read (R99). -/
def chunkBody (cfg : Config) (length : Word) (tag : Tag) (s : State) : Host.Outcome State Fault Refusal :=
  if tagValid cfg.tagCharset tag then
    if s.rem < Config.chunkOverhead + length.toNat then .next (raise .truncatedChunk s)
    else
      match readPayload s s.cursor length.toNat, readStored s s.cursor length.toNat with
      | some payload, some checksum => .next (acceptRecord (recDispatch cfg tag length payload checksum s))
      | _, _ => .fault .memReadOutOfRange
  else .next (tagInvalid cfg tag s)

/-- One iteration of the chunk loop (R99). -/
def frmChunk (cfg : Config) (s : State) : Host.Outcome State Fault Refusal :=
  if s.state = .parsing ∧ 0 < s.rem then
    if cfg.full s.chunkCount then .refused .chunksFull
    else if s.rem < Config.chunkOverhead then .next (raise .truncatedChunk s)
    else
      match readLength s s.cursor, readTag s s.cursor with
      | some length, some tag => chunkBody cfg length tag (s.setHead length tag)
      | _, _ => .fault .memReadOutOfRange
  else .next s

/-- Termination (R100). -/
def frmTerm (s : State) : State :=
  if s.state = .parsing ∧ s.rem = 0 then { s with state := .parsed } else s

/-- FRM.SIGCHK (R97). -/
def execFrmSigchk (s : State) : Host.Outcome State Fault Refusal := sigCheck s

/-- FRM.CHUNK (R99). -/
def execFrmChunk (s : State) : Host.Outcome State Fault Refusal := frmChunk Config.current s

/-- FRM.TERM (R100). -/
def execFrmTerm (s : State) : Host.Outcome State Fault Refusal := .next (frmTerm s)

end Sys2Proof.Machine
end

