-- ==== Sys2Proof/Machine/HostEvents.lean ====
section
/-!
DEFINITION. The host's events (`70_reset_and_hazards.md`): the meanings of the rows HOST.*. `LOAD` and `START`
outside `Unparsed` are ignored (D17; log entry 5).
-/

namespace Sys2Proof.Machine

/-- The reset state, with what the host has read and has yet to do kept: those are no state of the block (R140; log
entry 14). -/
def resetBlock (cfg : Config) (s : State) : State :=
  { State.resetWith cfg with readData := s.readData, freeIndex := s.freeIndex, host := s.host }

/-- The effect of `LOAD` (R143, R146). -/
def loadBuffer (cfg : Config) (bytes : List Byte) (s : State) : Host.Outcome State Fault Refusal :=
  if s.state = .unparsed then
    if cfg.fits bytes.length then .next (s.loadBytes bytes) else .refused .loadTooLong
  else .next s

/-- A value the spec does not state is a free one (log entry 9). -/
def giveFree (d : ReadData) (s : State) : State := (s.setReadData d).takeFree

/-- The effect of `READ` (R147): the block is unchanged, the host has the value. A record or a byte that does not exist
reads as a free value. -/
def readValue (sel : ReadSel) (s : State) : State :=
  match sel with
  | .reg r => s.setReadData (readReg s r)
  | .record index =>
    match readRecord s index with
    | some v => s.setReadData (.record v)
    | none => giveFree (.record (Config.freeRecord s.freeIndex)) s
  | .bufByte offset =>
    match readByte s offset with
    | some v => s.setReadData (.byte v)
    | none => giveFree (.byte (Config.freeByte s.freeIndex)) s

/-- HOST.RESET (R140), enabled in any state. -/
def execHostReset (s : State) : Host.Outcome State Fault Refusal := .next (resetBlock Config.current s)

/-- HOST.LOAD (R143). -/
def execHostLoad (bytes : List Byte) (s : State) : Host.Outcome State Fault Refusal :=
  loadBuffer Config.current bytes s

/-- HOST.START (R145): in `Unparsed` it performs `FRM.SIGCHK` atomically, elsewhere nothing. -/
def execHostStart (s : State) : Host.Outcome State Fault Refusal :=
  if s.state = .unparsed then sigCheck s else .next s

/-- HOST.READ (R147). -/
def execHostRead (sel : ReadSel) (s : State) : Host.Outcome State Fault Refusal := .next (readValue sel s)

end Sys2Proof.Machine
end

