-- ==== Sys2Proof/Machine/Dispatch.lean ====
section
/-!
DEFINITION. The one dispatch: every operation of the table to its meaning.
-/

namespace Sys2Proof.Machine

def exec (i : Instr) (s : State) : Host.Outcome State Fault Refusal :=
  match i with
  | .frmSigchk => Sys2Proof.Machine.execFrmSigchk s
  | .frmChunk => Sys2Proof.Machine.execFrmChunk s
  | .frmTerm => Sys2Proof.Machine.execFrmTerm s
  | .tagInvalid tag => Sys2Proof.Machine.execTagInvalid tag s
  | .recIhdr tag length payload checksum => Sys2Proof.Machine.execRecIhdr tag length payload checksum s
  | .recDispatch tag length payload checksum => Sys2Proof.Machine.execRecDispatch tag length payload checksum s
  | .recBase tag length payload checksum => Sys2Proof.Machine.execRecBase tag length payload checksum s
  | .recProps tag => Sys2Proof.Machine.execRecProps tag s
  | .recCcrc tag payload => Sys2Proof.Machine.execRecCcrc tag payload s
  | .recIhdrDecode payload => Sys2Proof.Machine.execRecIhdrDecode payload s
  | .crcBit r poly => Sys2Proof.Machine.execCrcBit r poly s
  | .crcByte r b poly => Sys2Proof.Machine.execCrcByte r b poly s
  | .crcBlock data poly init => Sys2Proof.Machine.execCrcBlock data poly init s
  | .hostReset => Sys2Proof.Machine.execHostReset s
  | .hostLoad bytes => Sys2Proof.Machine.execHostLoad bytes s
  | .hostStart => Sys2Proof.Machine.execHostStart s
  | .hostRead sel => Sys2Proof.Machine.execHostRead sel s

end Sys2Proof.Machine
end

