-- ==== Sys2Proof/Machine/Step.lean ====
section
/-!
DEFINITION. One step: the host's next event if its slot holds one, else the framer's own operation (R96), else
nothing (R29; log entry 7). And the state in which the next step runs a given word of the opcode table.
-/

namespace Sys2Proof.Machine

/-- The block's own step: the operation that is enabled, or waiting (R96, R29). -/
def blockStep (s : State) : Host.Outcome State Fault Refusal :=
  match nextOp s with
  | some i => exec i s
  | none => .next s

/-- One step. A slot of the host is used up by its step (log entry 4). -/
def step (s : State) : Host.Outcome State Fault Refusal :=
  match s.host with
  | some e :: rest => exec e.toInstr (s.setHost rest)
  | none :: rest => blockStep (s.setHost rest)
  | [] => blockStep s

/-- `s` with a word of the opcode table where the next step runs it (log entries 4 and 13): the signature as the whole
buffer with a `START` to come, any other element as the chunk at offset 8 of a parse whose signature was accepted. -/
def State.withFetchWord (s : State) (nbits w : Nat) : State :=
  match tableWordState nbits with
  | .unparsed =>
    { s with
      buf := Memory.ofBytes (tableWordBytes nbits w)
      bufLen := (tableWordBytes nbits w).length
      cursor := 0
      state := .unparsed
      host := [some .start] }
  | _ =>
    { s with
      buf := Memory.ofBytes (Config.sig ++ tableWordBytes nbits w)
      bufLen := (Config.sig ++ tableWordBytes nbits w).length
      cursor := Config.sigLen
      state := .parsing
      host := [] }

end Sys2Proof.Machine
end

