-- ==== Sys2Proof/Machine/Parameters.lean ====
section
/-!
DEFINITION. The machine with its parameters as arguments (R5, R11): an operation, a step and the state after reset for
any configuration. `exec`, `step` and `State.reset` are these at `Config.current` (log entry 12).
-/

namespace Sys2Proof.Machine

/-- Every operation of the table, of a machine with these parameters. -/
def execWith (cfg : Config) (i : Instr) (s : State) : Host.Outcome State Fault Refusal :=
  match i with
  | .frmSigchk => sigCheck s
  | .frmChunk => frmChunk cfg s
  | .frmTerm => .next (frmTerm s)
  | .tagInvalid tag => .next (tagInvalid cfg tag s)
  | .recIhdr tag length payload checksum => .next (recIhdr cfg tag length payload checksum s)
  | .recDispatch tag length payload checksum => .next (recDispatch cfg tag length payload checksum s)
  | .recBase tag length payload checksum => .next (recBase cfg tag length payload checksum s)
  | .recProps tag => .next (recProps tag s)
  | .recCcrc tag payload => .next (recCcrc cfg tag payload s)
  | .recIhdrDecode payload => .next (recIhdrDecode cfg payload s)
  | .crcBit r poly => execCrcBit r poly s
  | .crcByte r b poly => execCrcByte r b poly s
  | .crcBlock data poly init => execCrcBlock data poly init s
  | .hostReset => .next (resetBlock cfg s)
  | .hostLoad bytes => loadBuffer cfg bytes s
  | .hostStart => execHostStart s
  | .hostRead sel => .next (readValue sel s)

/-- The block's own step with these parameters (R96, R29). -/
def blockStepWith (cfg : Config) (s : State) : Host.Outcome State Fault Refusal :=
  match nextOp s with
  | some i => execWith cfg i s
  | none => .next s

/-- One step with these parameters. -/
def stepWith (cfg : Config) (s : State) : Host.Outcome State Fault Refusal :=
  match s.host with
  | some e :: rest => execWith cfg e.toInstr (s.setHost rest)
  | none :: rest => blockStepWith cfg (s.setHost rest)
  | [] => blockStepWith cfg s

/-- The block with these parameters, as the host sees a machine. -/
def machineWith (cfg : Config) : Host.Core where
  State := State
  Fault := Fault
  Refusal := Refusal
  step := stepWith cfg
  reset := State.resetWith cfg

end Sys2Proof.Machine
end

