-- ==== Sys2Proof/Machine/Serial.lean ====
section
/-!
DEFINITION. The byte-serial refinement of the chunk step (R105): its hidden registers and its micro-steps. It is not
run by `step`, whose chunk step is atomic (R96); it must reach the same end state (R105; log entry 16).
-/

namespace Sys2Proof.Machine

/-- The hidden phase register (R105). -/
inductive Phase where
  | pLen
  | pType
  | pPay
  | pCrc
  deriving DecidableEq, Repr

/-- The hidden registers of a chunk step in progress (R105, R27 (b)). -/
structure Micro where
  phase   : Phase
  k       : Nat
  fine    : Nat
  len     : Word
  tag     : Tag
  scrc    : Word
  crcReg  : Word
  payload : List Byte
  deriving DecidableEq, Repr

/-- A chunk step in progress, or ended with the outcome of the whole step. -/
inductive MicroOutcome where
  | running (m : Micro)
  | ended (o : Host.Outcome State Fault Refusal)

/-- The start of an iteration (R105), enabled as `FRM.CHUNK` is. Registers are written before they are read. -/
def serialStart (cfg : Config) (s : State) : MicroOutcome :=
  if s.state = .parsing ∧ 0 < s.rem then
    if cfg.full s.chunkCount then .ended (.refused .chunksFull)
    else if s.rem < Config.chunkOverhead then .ended (.next (raise .truncatedChunk s))
    else .running ⟨.pLen, 0, s.cursor, 0, ⟨0, 0, 0, 0⟩, 0, 0, []⟩
  else .ended (.next s)

/-- `TAG[k] <- byte` (R105). -/
def setTagByte (t : Tag) (k : Nat) (b : Byte) : Tag :=
  match k with
  | 0 => { t with t0 := b }
  | 1 => { t with t1 := b }
  | 2 => { t with t2 := b }
  | _ => { t with t3 := b }

/-- A big-endian accumulator takes a byte, cleared at `k = 0` (R105). -/
def shiftIn (w : Word) (k : Nat) (b : Byte) : Word :=
  ((if k = 0 then 0 else w) <<< 8) ||| b.setWidth 32

/-- The working registers of State when the step ends at this point. -/
def Micro.leave (m : Micro) (s : State) : State := (s.setHead m.len m.tag).setCrcReg m.crcReg

/-- The end of an iteration: dispatch, build and append the record, or raise (R105, after `P_CRC`). -/
def serialFinish (cfg : Config) (s : State) (m : Micro) : State :=
  let s' := (s.setSlices m.tag m.len m.scrc).setSums m.crcReg (maskChecksum cfg m.crcReg)
  match makeChunk cfg m.tag m.len m.payload m.scrc (maskChecksum cfg m.crcReg) with
  | .ok r => appendAdvance r s'
  | .error c => raise c s'

/-- A byte of the length field. -/
def microLen (m : Micro) (b : Byte) : MicroOutcome :=
  let m' := { m with len := shiftIn m.len m.k b, fine := m.fine + 1 }
  if m.k = 3 then .running { m' with phase := .pType, k := 0 } else .running { m' with k := m.k + 1 }

/-- A byte of the tag: into the engine, and after the fourth the tests (b) and (c). -/
def microType (cfg : Config) (s : State) (m : Micro) (b : Byte) : MicroOutcome :=
  let m' := { m with
    tag := setTagByte m.tag m.k b
    crcReg := crcByte (if m.k = 0 then Config.crcInit else m.crcReg) b Config.crcPoly
    fine := m.fine + 1 }
  if m.k = 3 then
    if tagValid cfg.tagCharset m'.tag then
      if s.rem < Config.chunkOverhead + m'.len.toNat then .ended (.next (raise .truncatedChunk (m'.leave s)))
      else .running { m' with phase := if m'.len.toNat = 0 then .pCrc else .pPay, k := 0 }
    else .ended (.next (raise .invalidTypeTag (m'.leave s)))
  else .running { m' with k := m.k + 1 }

/-- A byte of the payload: kept, and into the engine. -/
def microPay (m : Micro) (b : Byte) : MicroOutcome :=
  let m' := { m with
    payload := m.payload ++ [b]
    crcReg := crcByte m.crcReg b Config.crcPoly
    fine := m.fine + 1 }
  if m.k + 1 = m.len.toNat then .running { m' with phase := .pCrc, k := 0 } else .running { m' with k := m.k + 1 }

/-- A byte of the stored checksum, and after the fourth the end of the iteration. -/
def microCrc (cfg : Config) (s : State) (m : Micro) (b : Byte) : MicroOutcome :=
  let m' := { m with scrc := shiftIn m.scrc m.k b, fine := m.fine + 1 }
  if m.k = 3 then .ended (.next (serialFinish cfg s m')) else .running { m' with k := m.k + 1 }

/-- One micro-step: it consumes `BUF[CURSOR_fine]` (R105). -/
def microStep (cfg : Config) (s : State) (m : Micro) : MicroOutcome :=
  match readByte s m.fine with
  | none => .ended (.fault .memReadOutOfRange)
  | some b =>
    match m.phase with
    | .pLen => microLen m b
    | .pType => microType cfg s m b
    | .pPay => microPay m b
    | .pCrc => microCrc cfg s m b

/-- At most `n` micro-steps; none when they did not end the iteration. -/
def serialRun (cfg : Config) (s : State) : Nat → MicroOutcome → Option (Host.Outcome State Fault Refusal)
  | _, .ended o => some o
  | 0, .running _ => none
  | n + 1, .running m => serialRun cfg s n (microStep cfg s m)

/-- The chunk step, one byte at a time, in at most `n` micro-steps (R105). -/
def serialChunk (cfg : Config) (s : State) (n : Nat) : Option (Host.Outcome State Fault Refusal) :=
  serialRun cfg s n (serialStart cfg s)

end Sys2Proof.Machine
end

