-- ==== Sys2Proof/Machine/Stream.lean ====
section
/-!
DEFINITION. The notation in which the spec writes streams (R62, R63) and the bytes it stands for. It adds no behaviour.
-/

namespace Sys2Proof.Machine

/-- The `crc=` operand: eight digits, or a shorthand (R63). -/
inductive CrcForm where
  | value (w : Word)
  | std
  | zero
  deriving DecidableEq, Repr

/-- One line of the notation (R62); `len` left out is the number of data bytes. -/
inductive StreamLine where
  | sigLine
  | chunkLine (tag : Tag) (len : Option Word) (data : List Byte) (crc : CrcForm)
  | rawLine (bytes : List Byte)
  | endLine
  deriving DecidableEq, Repr

/-- The canonical checksum an authentic producer stores (R51, R63). -/
def canonicalCrc (tag : Tag) (data : List Byte) : Word := rawChecksum tag data ^^^ 0xFFFFFFFF

/-- The value of a `crc=` operand (R63). -/
def crcFormValue (tag : Tag) (data : List Byte) : CrcForm → Word
  | .value w => w
  | .std => canonicalCrc tag data
  | .zero => 0

/-- The bytes one line emits (R62). -/
def lineBytes : StreamLine → List Byte
  | .sigLine => Config.sig
  | .chunkLine tag len data crc =>
    encodeChunk (len.getD (BitVec.ofNat 32 data.length)) tag data (crcFormValue tag data crc)
  | .rawLine bytes => bytes
  | .endLine => []

/-- The bytes of a stream (R62). -/
def assemble (lines : List StreamLine) : List Byte := lines.flatMap lineBytes

end Sys2Proof.Machine
end

