-- ==== Sys2Proof/Safety.lean ====
section
/-!
DEFINITION. What statements speak of: the next state of an outcome, the invariants of R16 to R19, R102 and R103, and
what a record always is (R22, R23, R83).
-/

namespace Sys2Proof.Machine

/-- The next state an outcome answers, if it answers one. -/
def nextState : Host.Outcome State Fault Refusal → Option State
  | .next s => some s
  | .fault _ => none
  | .refused _ => none

/-- The state after `k` steps, if every one of them answers a next state. -/
def after : Nat → State → Option State
  | 0, s => some s
  | k + 1, s =>
    match step s with
    | .next t => after k t
    | .fault _ => none
    | .refused _ => none

/-- `BUF` holds exactly the bytes at offsets 0 to `BUF_LEN - 1` (R12, R13). -/
abbrev BufExact (s : State) : Prop := s.buf.map Prod.fst = List.range s.bufLen

/-- The bytes the records' chunks take up: the sum of `12 + length` (R103). -/
def chunkSum (rs : List Record) : Nat := (rs.map (fun r => Config.chunkOverhead + r.length.toNat)).sum

/-- Nothing consumed, nothing produced (R28, R95). -/
abbrev FreshInv (s : State) : Prop :=
  s.cursor = 0 ∧ s.chunks = [] ∧ s.chunkCount = 0 ∧ s.faultCode = none ∧ s.faultOffset = 0

/-- The invariants of R103 for `Parsing` and `Parsed`. -/
abbrev ActiveInv (s : State) : Prop :=
  8 ≤ s.cursor ∧ s.cursor ≤ s.bufLen ∧ s.chunkCount = s.chunks.length ∧ s.cursor = 8 + chunkSum s.chunks ∧
    s.faultCode = none ∧ s.faultOffset = 0

/-- The invariants of R103 for `Failed`. -/
abbrev FailedInv (s : State) : Prop :=
  s.chunks = [] ∧ s.chunkCount = 0 ∧ s.faultCode ≠ none ∧ s.cursor = s.faultOffset ∧ s.cursor ≤ s.bufLen

/-- The invariant of the machine (R16, R17, R18, R103). -/
abbrev Inv (s : State) : Prop :=
  BufExact s ∧
    (s.state = .unparsed → FreshInv s) ∧
    (s.state = .parsing → ActiveInv s) ∧
    (s.state = .parsed → ActiveInv s ∧ s.cursor = s.bufLen) ∧
    (s.state = .failed → FailedInv s)

/-- The round trip so far (R102): what has been consumed is the signature and the records' own chunks, in order. -/
abbrev RoundTrip (s : State) : Prop :=
  (s.state = .parsing ∨ s.state = .parsed) →
    s.buf.bytes.take s.cursor = Config.sig ++ s.chunks.flatMap encodeRecord

/-- What every record of this hardware is (R22, R23, R25, R83): its tag a case variant of "IHDR", its payload as long as
its length says and 13 bytes at least, its bits, fields and checksum those of its tag and payload, its mismatch set. -/
abbrev RecordOk (r : Record) : Prop :=
  r.typeTag.key = Config.keyIhdr ∧ r.payload.length = r.length.toNat ∧ 13 ≤ r.payload.length ∧
    r.props = propsOf r.typeTag ∧
    r.computedChecksum = computedChecksum Config.current r.typeTag r.payload ∧
    r.crcMismatch = true ∧
    (ihdrFields r.payload).map Variant.header = some r.variant

/-- The seven fields by their payload bytes (R52). -/
def fieldsAt (p : List Byte) : HeaderFields where
  width := be32 (p.getD 0 0) (p.getD 1 0) (p.getD 2 0) (p.getD 3 0)
  height := be32 (p.getD 4 0) (p.getD 5 0) (p.getD 6 0) (p.getD 7 0)
  bitDepth := p.getD 8 0
  colorType := p.getD 9 0
  compressionMethod := p.getD 10 0
  filterMethod := p.getD 11 0
  interlaceMethod := p.getD 12 0

/-- The header record of a chunk's four slices (R84, R86). -/
def headerOf (tag : Tag) (length : Word) (payload : List Byte) (checksum : Word) : Record where
  typeTag := tag
  props := propsOf tag
  length := length
  payload := payload
  storedChecksum := checksum
  computedChecksum := computedChecksum Config.current tag payload
  crcMismatch := true
  variant := .header (fieldsAt payload)

/-- The working registers after a chunk's slices and its checksum have been taken (R21, R82). -/
def withChunkRegs (s : State) (tag : Tag) (length : Word) (payload : List Byte) (checksum : Word) : State :=
  { s with
    len := length
    tag := tag
    scrc := checksum
    crcReg := rawChecksum tag payload
    ccrc := computedChecksum Config.current tag payload }

/-- The state a failure transition leaves (R119). -/
def failedState (c : Condition) (s : State) : State :=
  { s with faultCode := some c, faultOffset := s.cursor, chunks := [], chunkCount := 0, state := .failed }

/-- The bytes the framer has yet to decode are this chunk and then others (R47). -/
def ChunkAhead (s : State) (tag : Tag) (length : Word) (payload : List Byte) (checksum : Word) : Prop :=
  payload.length = length.toNat ∧ ∃ rest, s.remaining = encodeChunk length tag payload checksum ++ rest

/-- A byte sequence waiting to be loaded and parsed: the reset state with a host that will do both (log entry 4). -/
def loadAndStart (bytes : List Byte) : State :=
  { State.reset with host := [some (.load bytes), some .start] }

/-- Every record is such (R22). -/
abbrev RecordsOk (s : State) : Prop := ∀ r ∈ s.chunks, RecordOk r

end Sys2Proof.Machine
end

