-- ==== Sys2Proof/WellFormed.lean ====
section
/-!
DEFINITION. Which operations are well formed: the payload has the length its length field says (R22), the tag is of
the class of its row (R57), and a loaded input fits `BUF_LEN` (R143).
-/

namespace Sys2Proof

/-- A record operation's payload is "exactly `length` raw bytes" (R22, R80). -/
def payloadMatches (length : Word) (payload : List Byte) : Bool :=
  payload.length == length.toNat

/-- Well-formedness of an operation under a configuration. -/
def Instr.wellFormed (cfg : Config) : Instr → Bool
  | .frmSigchk => true
  | .frmChunk => true
  | .frmTerm => true
  | .tagInvalid tag => classify cfg tag == .invalid
  | .recIhdr tag len payload _ => payloadMatches len payload && classify cfg tag == .known .header
  | .recDispatch tag len payload _ => payloadMatches len payload && classify cfg tag == .unknown
  | .recBase _ len payload _ => payloadMatches len payload
  | .recProps _ => true
  | .recCcrc _ _ => true
  | .recIhdrDecode _ => true
  | .crcBit _ _ => true
  | .crcByte _ _ _ => true
  | .crcBlock _ _ _ => true
  | .hostReset => true
  | .hostLoad bytes => cfg.fits bytes.length
  | .hostStart => true
  | .hostRead _ => true

end Sys2Proof
end

