-- ==== Sys2Proof/Certificates/Slice0/Obligations.lean ====
section
/-!
DEFINITION. The statements for the provers, in the order of the spec's files. Every next state is written out as the
whole state, so that what is not named is unchanged.
-/

open Sys2Proof Sys2Proof.Machine

/-! Reset and codes -/

/-- What reset leaves of the architectural state (R28's table; the working registers' values are the model's, log
entry 1, and are not stated). -/
def Obligations.ResetStateIsTheTables : Prop :=
  State.reset.arch = ⟨[], 0, .unparsed, 0, [], 0, none, 0⟩

/-- The numbers of states and fault codes (R15, R116), and the derived `done` (R129). -/
def Obligations.CodesAndDoneWire : Prop :=
  [FramerState.unparsed, .parsing, .parsed, .failed].map (fun f => (stateCode f).toNat) = [0, 1, 2, 3] ∧
  [none, some Condition.badSignature, some .truncatedChunk, some .invalidTypeTag, some .unknownChunkType,
    some .malformedHeaderChunk].map (fun c => (faultBits c).toNat) = [0, 1, 2, 3, 4, 5] ∧
  ∀ s : State, s.done = true ↔ (s.state = .parsed ∨ s.state = .failed)

/-! Memory and encoding -/

/-- `MemRead` on the buffer a load leaves (R33): the bytes at the offsets asked for, defined exactly up to `BUF_LEN`. -/
def Obligations.MemReadReturnsLoadedBytes : Prop :=
  ∀ (s : State) (bytes : List Byte) (a n : Nat),
    memRead (s.loadBytes bytes) a n =
      if a + n ≤ bytes.length then some ((bytes.drop a).take n) else none

/-- `be32` (R31): the byte at the lowest offset is the most significant. -/
def Obligations.BigEndianFieldValue : Prop :=
  ∀ b0 b1 b2 b3 : Byte, (be32 b0 b1 b2 b3).toNat =
    b0.toNat * 2 ^ 24 + b1.toNat * 2 ^ 16 + b2.toNat * 2 ^ 8 + b3.toNat

/-- `upper` (R56) changes exactly the 26 lower-case letters; the spec marks that "from general knowledge" (log entry
17). -/
def Obligations.UpperChangesLowerCaseOnly : Prop :=
  ∀ b : Byte, (0x61 ≤ b.toNat ∧ b.toNat ≤ 0x7A → (upper b).toNat + 0x20 = b.toNat ∧ upper b = b &&& 0xDF) ∧
    (¬ (0x61 ≤ b.toNat ∧ b.toNat ≤ 0x7A) → upper b = b)

/-- The tags of the header class (R58): the case variants of "IHDR", which are those the mask and match of R57 select;
all four property bits of "ihdr" are 1. The spec marks R58 "derived: from rule R55 and rule R56". -/
def Obligations.HeaderTagsAreCaseVariants : Prop :=
  (∀ t : Tag, t.key = Config.keyIhdr ↔
    (t.t0 = 0x49 ∨ t.t0 = 0x69) ∧ (t.t1 = 0x48 ∨ t.t1 = 0x68) ∧
    (t.t2 = 0x44 ∨ t.t2 = 0x64) ∧ (t.t3 = 0x52 ∨ t.t3 = 0x72)) ∧
  (∀ t : Tag, t.key = Config.keyIhdr ↔ t.word &&& 0xDFDFDFDF = 0x49484452) ∧
  propsOf ⟨0x69, 0x68, 0x64, 0x72⟩ = ⟨true, true, true, true⟩

/-- The three tag classes by the masks of R57, in the order of their tests. -/
def Obligations.TagClassesByMask : Prop :=
  ∀ t : Tag, classify Config.current t =
    if t.word &&& 0x80808080 ≠ 0 then .invalid
    else if t.word &&& 0xDFDFDFDF = 0x49484452 then .known .header
    else .unknown

/-- Decoding the bytes of a well-formed operation gives it back, with the bytes after it; the end of the stream has
nothing after it. -/
def Obligations.DecodeOfEncode : Prop :=
  ∀ (i : Instr) (bytes rest : List Byte),
    i.wellFormed Config.current = true → encode i = some bytes → (i = .frmTerm → rest = []) →
    decode Config.current (decodedIn i) (bytes ++ rest) = .op i rest

/-- What is decoded is well formed, and its encoding and what is left are the bytes decoded; for an invalid tag what is
left begins after the `12 + length` bytes of its element (R53). -/
def Obligations.EncodeOfDecode : Prop :=
  ∀ (f : FramerState) (bytes rest : List Byte) (i : Instr),
    decode Config.current f bytes = .op i rest →
    i.wellFormed Config.current = true ∧
      ((∃ tag length later, i = .tagInvalid tag ∧ bytes = be32Bytes length ++ tag.bytes ++ later ∧
          rest = later.drop (length.toNat + 4)) ∨
        ∃ enc, encode i = some enc ∧ bytes = enc ++ rest)

/-- Words written out from the tables of R46, R47 and R57 decode to the operations they stand for. -/
def Obligations.SampleWordsDecode : Prop :=
  decodeTableWord 64 0x89504E470D0A1A0A = some .frmSigchk ∧
  decodeTableWord 64 0x89504E470D0A1A0B = none ∧
  decodeTableWord 32 0x49484452 = some (.recIhdr ⟨0x49, 0x48, 0x44, 0x52⟩ 0 [] 0) ∧
  decodeTableWord 32 0x7A545874 = some (.recDispatch ⟨0x7A, 0x54, 0x58, 0x74⟩ 0 [] 0) ∧
  decodeTableWord 32 0x80414243 = some (.tagInvalid ⟨0x80, 0x41, 0x42, 0x43⟩) ∧
  decodeTableWord 104 0x0000000180414243AA00000000 = some .frmChunk ∧
  decodeTableWord 96 0x000000018041424300000000 = none ∧
  decode Config.current .parsing [0, 0, 0, 1, 0x7A, 0x54, 0x58, 0x74, 0xAA, 0x12, 0x34, 0x56, 0x78, 0x99] =
    .op (.recDispatch ⟨0x7A, 0x54, 0x58, 0x74⟩ 1 [0xAA] 0x12345678) [0x99]

/-! The checksum engine -/

/-- CRC.BIT (R66): the logical shift with the conditional XOR, bit by bit; its corner cases; its inverse for a
polynomial whose bit 31 is 1, which the spec derives; its example. The spec marks the step itself "from general
knowledge" (log entry 17), and that the result stands in `CRC_REG` is the model's (log entry 8). -/
def Obligations.CrcBitShiftsAndXors : Prop :=
  (∀ (r poly : Word) (s : State), ∃ x, exec (.crcBit r poly) s = .next { s with crcReg := x } ∧
    (r.getLsbD 0 = true → x = (r >>> 1) ^^^ poly) ∧ (r.getLsbD 0 = false → x = r >>> 1) ∧
    x.getLsbD 31 = (r.getLsbD 0 && poly.getLsbD 31) ∧
    ∀ i, i < 31 → x.getLsbD i = (r.getLsbD (i + 1) ^^ (r.getLsbD 0 && poly.getLsbD i))) ∧
  (∀ poly, crcBit 0 poly = 0 ∧ crcBit 1 poly = poly) ∧
  (∀ r poly : Word, poly.getLsbD 31 = true →
    (crcBit r poly).getLsbD 31 = r.getLsbD 0 ∧
    crcBitInverse (crcBit r poly) poly = r ∧ crcBit (crcBitInverse r poly) poly = r) ∧
  crcBit 0xFFFFFFFF 0xEDB88320 = 0x92477CDF

/-- CRC.BYTE (R67): eight steps after the byte enters the low bits; its corner cases, which the spec derives, and
examples. The spec marks the byte's place "from general knowledge" (log entry 17). -/
def Obligations.CrcByteAbsorbsOneByte : Prop :=
  (∀ (r : Word) (b : Byte) (poly : Word) (s : State), ∃ r0 r1 r2 r3 r4 r5 r6 r7 r8,
    r0 = r ^^^ b.setWidth 32 ∧ r1 = crcBit r0 poly ∧ r2 = crcBit r1 poly ∧ r3 = crcBit r2 poly ∧
    r4 = crcBit r3 poly ∧ r5 = crcBit r4 poly ∧ r6 = crcBit r5 poly ∧ r7 = crcBit r6 poly ∧
    r8 = crcBit r7 poly ∧ crcByte r b poly = r8 ∧ exec (.crcByte r b poly) s = .next { s with crcReg := r8 }) ∧
  (∀ poly, crcByte 0 0 poly = 0) ∧
  (∀ (r : Word) (b : Byte) (poly : Word), crcByte r b poly = crcByte (r ^^^ b.setWidth 32) 0 poly) ∧
  (∀ poly : Word, poly.getLsbD 31 = true → ∀ b : Byte, Function.Bijective (fun r => crcByte r b poly)) ∧
  (∀ poly : Word, poly.getLsbD 31 = true → ∀ r : Word, Function.Injective (fun b => crcByte r b poly)) ∧
  crcByte 0xFFFFFFFF 0x00 0xEDB88320 = 0x2DFD1072 ∧ crcByte 0xFFFFFFFF 0xFF 0xEDB88320 = 0x00FFFFFF

/-- CRC.BLOCK (R68): the fold of `crc_byte` over the bytes in order, with no final XOR (R69); the empty input (the
spec's decision D27), the splitting law ("derived: from the pseudocode"), the example. -/
def Obligations.CrcBlockFoldsTheBytes : Prop :=
  (∀ (data : List Byte) (poly init : Word) (s : State),
    exec (.crcBlock data poly init) s =
      .next { s with crcReg := data.foldl (fun r b => crcByte r b poly) init }) ∧
  (∀ poly init, crcBlock [] poly init = init) ∧
  (∀ (a b : List Byte) (poly init : Word),
    crcBlock (a ++ b) poly init = crcBlock b poly (crcBlock a poly init)) ∧
  crcBlock [0x31, 0x32, 0x33, 0x34, 0x35, 0x36, 0x37, 0x38, 0x39] 0xEDB88320 0xFFFFFFFF = 0x340BC6D9

/-- The table-driven form returns the same value for every register, byte and polynomial (R70, marked "derived: from
rule R66 and rule R67"), with the entries R70 lists. -/
def Obligations.TableFormEqualsBitForm : Prop :=
  (∀ (r : Word) (b : Byte) (poly : Word), crcByteByTable r b poly = crcByte r b poly) ∧
  (∀ (poly : Word) (i : Byte), crcTable poly i = crcByte 0 i poly) ∧
  crcTable 0xEDB88320 0 = 0x00000000 ∧ crcTable 0xEDB88320 1 = 0x77073096 ∧
  crcTable 0xEDB88320 2 = 0xEE0E612C ∧ crcTable 0xEDB88320 128 = 0xEDB88320 ∧
  crcTable 0xEDB88320 255 = 0x2D02EF8D

/-- Changing one byte changes the raw output (R71, marked "derived: from rule R66 and rule R67"). -/
def Obligations.OneByteChangesTheChecksum : Prop :=
  ∀ (before later : List Byte) (b b' : Byte) (init : Word), b ≠ b' →
    crcBlock (before ++ b :: later) Config.crcPoly init ≠ crcBlock (before ++ b' :: later) Config.crcPoly init

/-- The check values of R73, raw and XORed with `0xFFFFFFFF`. -/
def Obligations.EngineCheckValues : Prop :=
  ∀ row ∈ [(([] : List Byte), (0xFFFFFFFF : Word), (0x00000000 : Word)),
      ([0x00], 0x2DFD1072, 0xD202EF8D),
      ([0x61], 0x174841BC, 0xE8B7BE43),
      ([0x31, 0x32, 0x33, 0x34, 0x35, 0x36, 0x37, 0x38, 0x39], 0x340BC6D9, 0xCBF43926),
      ([0x49, 0x45, 0x4E, 0x44], 0x51BD9F7D, 0xAE426082)],
    crcBlock row.1 Config.crcPoly Config.crcInit = row.2.1 ∧
    crcBlock row.1 Config.crcPoly Config.crcInit ^^^ 0xFFFFFFFF = row.2.2

/-! Records -/

/-- REC.PROPS (R81): bit `0x20` of each byte of the tag as read, and nothing raised; "IHDR", "tEXt" and a tag of
non-letters. That the bits stand in `result` is the model's choice (log entry 8). -/
def Obligations.PropsAreBitFive : Prop :=
  (∀ (tag : Tag) (s : State), ∃ p : Props,
    exec (.recProps tag) s = .next { s with result := some (.props p) } ∧
    (p.ancillary = true ↔ tag.t0 &&& 0x20 ≠ 0) ∧ (p.isPrivate = true ↔ tag.t1 &&& 0x20 ≠ 0) ∧
    (p.reserved = true ↔ tag.t2 &&& 0x20 ≠ 0) ∧ (p.safeToCopy = true ↔ tag.t3 &&& 0x20 ≠ 0)) ∧
  propsOf ⟨0x49, 0x48, 0x44, 0x52⟩ = ⟨false, false, false, false⟩ ∧
  propsOf ⟨0x74, 0x45, 0x58, 0x74⟩ = ⟨true, false, false, true⟩ ∧
  propsOf ⟨0x31, 0x00, 0x5F, 0x20⟩ = ⟨true, false, false, true⟩

/-- REC.CCRC (R82): the engine over tag and payload, zero-extended and XORed with the 40-bit mask; the example; the
32-bit complement, on 32 bits, under the switch; the width follows the mask (R5). -/
def Obligations.ComputedChecksumIsMasked : Prop :=
  (∀ (tag : Tag) (payload : List Byte) (s : State),
    exec (.recCcrc tag payload) s =
      .next { s with
        crcReg := crcBlock (tag.bytes ++ payload) 0xEDB88320 0xFFFFFFFF
        ccrc := .wide ((crcBlock (tag.bytes ++ payload) 0xEDB88320 0xFFFFFFFF).setWidth 40 ^^^ 0xFFFFFFFFFF) }) ∧
  computedChecksum Config.current ⟨0x49, 0x45, 0x4E, 0x44⟩ [] = .wide 0xFFAE426082 ∧
  (∀ (cfg : Config) (tag : Tag) (payload : List Byte) (s : State), cfg.finalMask = .ones32 →
    execWith cfg (.recCcrc tag payload) s =
      .next { s with
        crcReg := rawChecksum tag payload
        ccrc := .narrow (rawChecksum tag payload ^^^ 0xFFFFFFFF) }) ∧
  (∀ (cfg : Config) (tag : Tag) (payload : List Byte),
    (computedChecksum cfg tag payload).width = cfg.ccrcWidth ∧
    cfg.ccrcWidth = if cfg.finalMask = .ones40 then 40 else 32)

/-- Two different tags over the same payload have different checksums (R82: two that differ only in case among them). -/
def Obligations.DifferentTagsDifferInChecksum : Prop :=
  ∀ (tag tag' : Tag) (payload : List Byte), tag ≠ tag' →
    computedChecksum Config.current tag payload ≠ computedChecksum Config.current tag' payload

/-- The shape of a computed checksum (R83): `0xFF00000000` plus the complemented raw output, within its range, its low
32 bits canonical, and equal to no stored checksum. The spec marks it "derived: from rule R82". -/
def Obligations.ComputedChecksumShape : Prop :=
  ∀ (tag : Tag) (payload : List Byte), ∃ v : BitVec 40, computedChecksum Config.current tag payload = .wide v ∧
    v.toNat = 0xFF00000000 + (rawChecksum tag payload ^^^ 0xFFFFFFFF).toNat ∧
    0xFF00000000 ≤ v.toNat ∧
    v.setWidth 32 = canonicalCrc tag payload ∧
    ∀ stored : Word, stored.setWidth 40 ≠ v

/-- REC.BASE (R84): the base record of any four operands, whether or not `length` is the payload's, its checksum
computed and its mismatch the comparison of the two checksums; the example. That the operation by itself leaves the
slices in `LEN`, `TAG`, `SCRC` and the record in `result` is the model's choice (log entry 8). -/
def Obligations.BaseRecordIsBuilt : Prop :=
  (∀ (tag : Tag) (length : Word) (payload : List Byte) (checksum : Word) (s : State),
    ∃ (v : BitVec 40) (mismatch : Bool), computedChecksum Config.current tag payload = .wide v ∧
    (mismatch = true ↔ checksum.setWidth 40 ≠ v) ∧
    exec (.recBase tag length payload checksum) s =
      .next { withChunkRegs s tag length payload checksum with
        result := some (.record
          ⟨tag, propsOf tag, length, payload, checksum, .wide v, mismatch, .base⟩) }) ∧
  propsOf ⟨0x49, 0x45, 0x4E, 0x44⟩ = ⟨false, false, false, false⟩ ∧
  computedChecksum Config.current ⟨0x49, 0x45, 0x4E, 0x44⟩ [] = .wide 0xFFAE426082 ∧
  (0xAE426082 : Word).setWidth 40 ≠ (0xFFAE426082 : BitVec 40)

/-- REC.IHDR (R86, R87): with 13 payload bytes or more, the header record of the operands. That it stands in `result`,
and the slices in `LEN`, `TAG`, `SCRC`, is the model's choice (log entry 8). -/
def Obligations.HeaderRecordIsBuilt : Prop :=
  ∀ (tag : Tag) (length : Word) (payload : List Byte) (checksum : Word) (s : State),
    13 ≤ payload.length →
    exec (.recIhdr tag length payload checksum) s =
      .next { withChunkRegs s tag length payload checksum with
        result := some (.record (headerOf tag length payload checksum)) }

/-- REC.IHDR with fewer than 13 bytes (R87): in a chunk step `MalformedHeaderChunk` is raised and no record returned.
`result` and what the working registers hold after the raise are the model's (log entries 8 and 15). -/
def Obligations.ShortHeaderIsMalformed : Prop :=
  ∀ (tag : Tag) (length : Word) (payload : List Byte) (checksum : Word) (s : State),
    payload.length < 13 → s.state = .parsing →
    exec (.recIhdr tag length payload checksum) s =
      .next (failedState .malformedHeaderChunk
        { withChunkRegs s tag length payload checksum with result := none })

/-- REC.IHDR.DECODE (R87): the seven fields from 13 bytes or more, `MalformedHeaderChunk` in a chunk step from fewer.
That the fields stand in `result`, and nothing after a failure, is the model's choice (log entry 8). -/
def Obligations.HeaderPayloadDecodes : Prop :=
  (∀ (payload : List Byte) (s : State), 13 ≤ payload.length →
    exec (.recIhdrDecode payload) s = .next { s with result := some (.header (fieldsAt payload)) }) ∧
  (∀ (payload : List Byte) (s : State), payload.length < 13 → s.state = .parsing →
    exec (.recIhdrDecode payload) s = .next (failedState .malformedHeaderChunk { s with result := none }))

/-- REC.DISPATCH (R85 to R87): a case variant of "IHDR" gets the header constructor, which raises `MalformedHeaderChunk`
in a chunk step from fewer than 13 bytes; any other tag raises `UnknownChunkType` in a chunk step, with no record and no
checksum computed. `result`, and the working registers after a raise, are the model's (log entries 8 and 15). -/
def Obligations.DispatchByUpperCasedTag : Prop :=
  (∀ (tag : Tag) (length : Word) (payload : List Byte) (checksum : Word) (s : State),
    tag.key = Config.keyIhdr → 13 ≤ payload.length →
    exec (.recDispatch tag length payload checksum) s =
      .next { withChunkRegs s tag length payload checksum with
        result := some (.record (headerOf tag length payload checksum)) }) ∧
  (∀ (tag : Tag) (length : Word) (payload : List Byte) (checksum : Word) (s : State),
    tag.key = Config.keyIhdr → payload.length < 13 → s.state = .parsing →
    exec (.recDispatch tag length payload checksum) s =
      .next (failedState .malformedHeaderChunk
        { withChunkRegs s tag length payload checksum with result := none })) ∧
  (∀ (tag : Tag) (length : Word) (payload : List Byte) (checksum : Word) (s : State),
    tag.key ≠ Config.keyIhdr → s.state = .parsing →
    exec (.recDispatch tag length payload checksum) s =
      .next (failedState .unknownChunkType
        { s with len := length, tag := tag, scrc := checksum, result := none }))

/-- TAG.INVALID (R122): a tag with a byte of `0x80` or above raises `InvalidTypeTag` in a chunk step. That the operation by
itself leaves its tag in `TAG`, and what the working registers hold after the raise, are the model's (log entries 8 and
15). -/
def Obligations.InvalidTagRaises : Prop :=
  ∀ (tag : Tag) (s : State), (∃ b ∈ tag.bytes, 0x80 ≤ b.toNat) → s.state = .parsing →
    exec (.tagInvalid tag) s = .next (failedState .invalidTypeTag { s with tag := tag })

/-- The model's choice (log entry 6): outside a chunk step an operation of a chunk raises nothing. -/
def Obligations.RecordOpsRaiseInParsingOnly : Prop :=
  ∀ (i : Instr) (s t : State),
    ((∃ tag, i = .tagInvalid tag) ∨ (∃ tag l p c, i = .recIhdr tag l p c) ∨
      (∃ tag l p c, i = .recDispatch tag l p c) ∨ (∃ p, i = .recIhdrDecode p)) →
    s.state ≠ .parsing → exec i s = .next t → t.arch = s.arch

/-- The alternatives the source allows (D8, D9, D20), in the machine that has them: unknown tags as base records, so that
`UnknownChunkType` is never raised (R123); letters only; 13 bytes exactly. -/
def Obligations.SwitchesSelectTheAlternatives : Prop :=
  (∀ (cfg : Config) (tag : Tag) (length : Word) (payload : List Byte) (checksum : Word) (s : State),
    cfg.unknownPolicy = .base → lookupCtor cfg.registry tag.key = none →
    execWith cfg (.recDispatch tag length payload checksum) s =
      execWith cfg (.recBase tag length payload checksum) s) ∧
  (∀ (cfg : Config) (s t : State), cfg.unknownPolicy = .base → stepWith cfg s = .next t →
    t.faultCode = some .unknownChunkType → s.faultCode = some .unknownChunkType) ∧
  (∀ (tag : Tag), tagValid .letters tag = true ↔
    ∀ b ∈ tag.bytes, (0x41 ≤ b.toNat ∧ b.toNat ≤ 0x5A) ∨ (0x61 ≤ b.toNat ∧ b.toNat ≤ 0x7A)) ∧
  (∀ (cfg : Config) (payload : List Byte), cfg.ihdrStrictLen = true →
    ((decodeIhdr cfg payload).isSome = true ↔ payload.length = 13))

/-! The framer -/

/-- FRM.SIGCHK (R97), by itself and as HOST.START's effect: the first eight bytes are the signature and the parse
begins, or `BadSignature` is raised, with offset 0 under the invariant. -/
def Obligations.SignatureDecidesTheParse : Prop :=
  ∀ s : State, s.state = .unparsed → BufExact s →
    (s.buf.bytes.take 8 = [137, 80, 78, 71, 13, 10, 26, 10] →
      exec .frmSigchk s = .next { s with cursor := 8, state := .parsing } ∧
      exec .hostStart s = .next { s with cursor := 8, state := .parsing }) ∧
    (s.buf.bytes.take 8 ≠ [137, 80, 78, 71, 13, 10, 26, 10] →
      exec .frmSigchk s = .next (failedState .badSignature s) ∧
      exec .hostStart s = .next (failedState .badSignature s) ∧
      (Inv s → (failedState .badSignature s).faultOffset = 0))

/-- FRM.CHUNK (R99) on a complete header chunk: the record is appended and the cursor advanced past it, whatever
follows and whatever checksum is stored (R127). The record also stands in `result` (the model's choice, log entry 8). -/
def Obligations.ChunkStepAppendsTheRecord : Prop :=
  ∀ (s : State) (tag : Tag) (length : Word) (payload : List Byte) (checksum : Word),
    s.state = .parsing → BufExact s → ChunkAhead s tag length payload checksum →
    tag.key = Config.keyIhdr → 13 ≤ payload.length →
    exec .frmChunk s =
      .next { withChunkRegs s tag length payload checksum with
        chunks := s.chunks ++ [headerOf tag length payload checksum]
        chunkCount := s.chunkCount + 1
        cursor := s.cursor + 12 + length.toNat
        result := some (.record (headerOf tag length payload checksum)) }

/-- `ChecksumMismatch` is never raised (R127): two complete chunks that differ in their stored checksum alone take the
parse the same way. -/
def Obligations.StoredChecksumDecidesNothing : Prop :=
  ∀ (s s' : State) (tag : Tag) (length : Word) (payload : List Byte) (checksum checksum' : Word),
    s.state = .parsing → s'.state = .parsing → BufExact s → BufExact s' →
    ChunkAhead s tag length payload checksum → ChunkAhead s' tag length payload checksum' →
    s.cursor = s'.cursor → s.faultCode = s'.faultCode →
    ∃ t t', exec .frmChunk s = .next t ∧ exec .frmChunk s' = .next t' ∧
      t.state = t'.state ∧ t.faultCode = t'.faultCode ∧ t.cursor = t'.cursor

/-- Which condition a chunk step raises (R124): the first of the five tests that fails, on natural numbers that do not
wrap; where none does, one record is appended and nothing raised. The order is the spec's reading of its source (D11;
log entry 18). -/
def Obligations.ChunkConditionsInOrder : Prop :=
  ∀ s : State, s.state = .parsing → BufExact s → 0 < s.rem →
    (s.rem < 12 → exec .frmChunk s = .next (failedState .truncatedChunk s)) ∧
    (∀ (length : Word) (tag : Tag) (later : List Byte), 12 ≤ s.rem →
      s.remaining = be32Bytes length ++ tag.bytes ++ later →
      ∃ t, exec .frmChunk s = .next t ∧
        if ∃ b ∈ tag.bytes, 0x80 ≤ b.toNat then t.arch = (failedState .invalidTypeTag s).arch
        else if s.rem < 12 + length.toNat then t.arch = (failedState .truncatedChunk s).arch
        else if tag.key ≠ Config.keyIhdr then t.arch = (failedState .unknownChunkType s).arch
        else if length.toNat < 13 then t.arch = (failedState .malformedHeaderChunk s).arch
        else t.state = .parsing ∧ t.faultCode = s.faultCode ∧ t.cursor = s.cursor + (12 + length.toNat) ∧
          ∃ r, t.chunks = s.chunks ++ [r] ∧ r.length = length ∧ r.typeTag = tag)

/-- A chunk step that appends leaves the buffer and every other register but the working ones unchanged, and advances
by 12 bytes at least (R99, R104). -/
def Obligations.ChunkStepProgress : Prop :=
  ∀ s t : State, s.state = .parsing → 0 < s.rem → exec .frmChunk s = .next t → t.state = .parsing →
    s.cursor + 12 ≤ t.cursor ∧ t.cursor ≤ s.bufLen ∧ t.buf = s.buf ∧ t.bufLen = s.bufLen ∧
    t.faultCode = s.faultCode ∧ t.faultOffset = s.faultOffset ∧
    t.chunkCount = s.chunkCount + 1 ∧ (∃ r, t.chunks = s.chunks ++ [r] ∧ t.cursor = s.cursor + 12 + r.length.toNat) ∧
    t.readData = s.readData ∧ t.freeIndex = s.freeIndex ∧ t.host = s.host

/-- FRM.TERM (R100): with no bytes left the parse is `Parsed` and nothing else changes; under the invariant the cursor
is then the buffer's end, `FAULT_CODE` is `None`; it is reached directly after an 8-byte signature. -/
def Obligations.TerminationEndsTheParse : Prop :=
  (∀ s : State, s.state = .parsing → s.rem = 0 → exec .frmTerm s = .next { s with state := .parsed }) ∧
  (∀ s : State, Inv s → s.state = .parsing → s.rem = 0 → s.cursor = s.bufLen ∧ s.faultCode = none) ∧
  (∀ s : State, s.state = .unparsed → s.buf = Memory.ofBytes Config.sig → s.bufLen = 8 → s.host = [] →
    ∃ t, exec .hostStart s = .next t ∧ t.rem = 0 ∧ step t = .next { t with state := .parsed })

/-! Whole-machine rules -/

/-- The failure transition (R119): whatever operation enters `Failed`, the code names one condition, the offset is the
cursor, the records are withdrawn (the spec's decision D13), and nothing else of the architectural state changes. -/
def Obligations.FailureTransitionIsOne : Prop :=
  ∀ (i : Instr) (s t : State), exec i s = .next t → s.state ≠ .failed → t.state = .failed →
    ∃ c, t.arch = (failedState c s).arch ∧ (c = .badSignature ↔ s.state = .unparsed)

/-- The transitions of the framer (R95) and reset: no operation changes `STATE` otherwise. Parsing fails in `FRM.CHUNK`
with bytes left, or in an operation that a chunk step calls, each with its own conditions (R116). -/
def Obligations.OnlyTheTablesTransitions : Prop :=
  ∀ (i : Instr) (s t : State), exec i s = .next t → t.state ≠ s.state →
    i = .hostReset ∧ t.state = .unparsed ∨
    (i = .frmSigchk ∨ i = .hostStart) ∧ s.state = .unparsed ∧
      (t.state = .parsing ∧ 8 ≤ s.bufLen ∧ readSig s = some Config.sig ∧ t.cursor = 8 ∨
        t.state = .failed ∧ t.faultCode = some .badSignature) ∨
    s.state = .parsing ∧ t.state = .failed ∧
      (i = .frmChunk ∧ 0 < s.rem ∧ t.faultCode ∈ [some .truncatedChunk, some .invalidTypeTag, some .unknownChunkType,
          some .malformedHeaderChunk] ∨
        (∃ tag, i = .tagInvalid tag) ∧ t.faultCode = some .invalidTypeTag ∨
        (∃ tag l p c, i = .recDispatch tag l p c) ∧
          t.faultCode ∈ [some .unknownChunkType, some .malformedHeaderChunk] ∨
        ((∃ tag l p c, i = .recIhdr tag l p c) ∨ ∃ p, i = .recIhdrDecode p) ∧
          t.faultCode = some .malformedHeaderChunk) ∨
    i = .frmTerm ∧ s.state = .parsing ∧ s.rem = 0 ∧ t.state = .parsed ∧ t.cursor = s.cursor

/-- No return and no nesting (R126): in a terminal state no operation but `HOST.RESET` changes the architectural
state, and `HOST.RESET` leaves it. -/
def Obligations.OnlyResetLeavesATerminalState : Prop :=
  ∀ s : State, (s.state = .parsed ∨ s.state = .failed) →
    (∀ (i : Instr) (t : State), exec i s = .next t → i ≠ .hostReset → t.arch = s.arch) ∧
    ∃ t, exec .hostReset s = .next t ∧ t.state = .unparsed

/-- The buffer is written by a load before the start and by reset, by nothing else (R12, R43). -/
def Obligations.OnlyLoadAndResetWriteTheBuffer : Prop :=
  ∀ (i : Instr) (s t : State), exec i s = .next t →
    (t.buf = s.buf ∧ t.bufLen = s.bufLen) ∨ i = .hostReset ∨ (∃ bytes, i = .hostLoad bytes) ∧ s.state = .unparsed

/-- The working registers carry nothing from one step to the next: two states that agree but for them, and but for
what was last returned or read, step to states that agree again. -/
def Obligations.WorkingRegistersAreDead : Prop :=
  ∀ s s' : State, s.arch = s'.arch → s.host = s'.host →
    (∃ t t', step s = .next t ∧ step s' = .next t' ∧ t.arch = t'.arch ∧ t.host = t'.host) ∨
    (∃ f, step s = .fault f ∧ step s' = .fault f) ∨ ∃ r, step s = .refused r ∧ step s' = .refused r

/-! The host -/

/-- HOST.RESET (R140), in any state; the host's own side is kept (log entry 14). Only it leaves `Parsed` or `Failed`. -/
def Obligations.ResetRestoresTheResetState : Prop :=
  (∀ s : State, ∃ t, exec .hostReset s = .next t ∧
    t.state = .unparsed ∧ t.cursor = 0 ∧ t.bufLen = 0 ∧ t.buf = [] ∧ t.chunks = [] ∧ t.chunkCount = 0 ∧
    t.faultCode = none ∧ t.faultOffset = 0 ∧ t.host = s.host ∧ t.readData = s.readData) ∧
  (∀ (i : Instr) (s t : State), (s.state = .parsed ∨ s.state = .failed) → exec i s = .next t →
    t.state ≠ s.state → i = .hostReset)

/-- HOST.LOAD (R143) in `Unparsed`: the buffer holds exactly the bytes, `BUF_LEN` their count, nothing else changes, and
a second load replaces the first. -/
def Obligations.LoadFillsTheBuffer : Prop :=
  ∀ (bytes : List Byte) (s : State), s.state = .unparsed →
    ∃ t, exec (.hostLoad bytes) s = .next t ∧ t = { s with buf := t.buf, bufLen := bytes.length } ∧
      Memory.wf t.buf = true ∧ BufExact t ∧ t.buf.bytes = bytes ∧
      ∀ again, exec (.hostLoad again) t = exec (.hostLoad again) s

/-- Outside `Unparsed` a `START` and a `LOAD` are ignored: the spec's decision D17, and the model's log entry 5. -/
def Obligations.LateStartAndLoadAreIgnored : Prop :=
  ∀ (bytes : List Byte) (s : State), s.state ≠ .unparsed →
    exec .hostStart s = .next s ∧ exec (.hostLoad bytes) s = .next s

/-- HOST.READ (R147): each register, each record below `CHUNK_COUNT`, each byte of the buffer, given to the host with
nothing else changed. -/
def Obligations.ReadGivesTheValue : Prop :=
  ∀ s : State,
    exec (.hostRead (.reg .state)) s = .next { s with readData := some (.state s.state) } ∧
    exec (.hostRead (.reg .cursor)) s = .next { s with readData := some (.number s.cursor) } ∧
    exec (.hostRead (.reg .bufLen)) s = .next { s with readData := some (.number s.bufLen) } ∧
    exec (.hostRead (.reg .chunkCount)) s = .next { s with readData := some (.number s.chunkCount) } ∧
    exec (.hostRead (.reg .faultCode)) s = .next { s with readData := some (.fault s.faultCode) } ∧
    exec (.hostRead (.reg .faultOffset)) s = .next { s with readData := some (.number s.faultOffset) } ∧
    (∀ (index : Nat) (h : index < s.chunks.length),
      exec (.hostRead (.record index)) s = .next { s with readData := some (.record s.chunks[index]) }) ∧
    (BufExact s → ∀ (offset : Nat) (h : offset < s.buf.bytes.length),
      exec (.hostRead (.bufByte offset)) s = .next { s with readData := some (.byte s.buf.bytes[offset]) })

/-- The model's choice (log entry 9): a read of what does not exist gives some value and changes nothing of the block. -/
def Obligations.ReadOfNothingGivesSomeValue : Prop :=
  ∀ (s : State) (k : Nat),
    (∃ v, exec (.hostRead (.record (s.chunks.length + k))) s =
      .next { s with readData := some (.record v), freeIndex := s.freeIndex + 1 }) ∧
    (∃ v, exec (.hostRead (.bufByte (s.bufLen + k))) s =
      .next { s with readData := some (.byte v), freeIndex := s.freeIndex + 1 })

/-! Steps and runs -/

/-- Which operation a step is (R96; the host's slots are the model's, log entry 4): the host's event if its slot holds
one, else the framer's own, else nothing. -/
def Obligations.StepPerformsTheEnabledOperation : Prop :=
  (∀ (s : State) (e : HostEvent) (rest : List (Option HostEvent)), s.host = some e :: rest →
    step s = exec e.toInstr { s with host := rest }) ∧
  (∀ (s : State) (rest : List (Option HostEvent)), s.host = none :: rest →
    step s = blockStep { s with host := rest }) ∧
  (∀ s : State, s.host = [] → s.state = .parsing → 0 < s.rem → step s = exec .frmChunk s) ∧
  (∀ s : State, s.host = [] → s.state = .parsing → s.rem = 0 → step s = exec .frmTerm s) ∧
  (∀ s : State, s.host = [] → s.state ≠ .parsing → step s = .next s)

/-- A step runs the operation the bytes at `CURSOR` decode to: with `LEN` read, that operation, and then, where it
returned a record, the append and the advance of the loop (R99 (e), (f)). -/
def Obligations.StepRunsTheDecodedElement : Prop :=
  ∀ (s : State) (i : Instr) (length : Word) (later rest : List Byte),
    s.host = [] → s.state = .parsing → BufExact s →
    decode Config.current .parsing s.remaining = .op i rest →
    (i = .frmTerm → step s = exec i s) ∧
    (i ≠ .frmTerm → s.remaining = be32Bytes length ++ later →
      ∃ t, exec i { s with len := length } = .next t ∧
        step s = .next (match t.result, t.state with
          | some (.record r), .parsing => appendAdvance r t
          | _, _ => t))

/-- The decoder's rejection is the condition the step raises: no complete element is `TruncatedChunk` (R121). -/
def Obligations.RejectedElementIsTruncated : Prop :=
  ∀ (s : State) (c : Condition), s.host = [] → s.state = .parsing → BufExact s →
    decode Config.current .parsing s.remaining = .reject c →
    c = .truncatedChunk ∧ ∃ t, step s = .next t ∧ t.arch = (failedState .truncatedChunk s).arch

/-- The invariant, the round trip and the records' shape hold at reset. -/
def Obligations.InvariantsHoldAtReset : Prop :=
  Inv State.reset ∧ RoundTrip State.reset ∧ RecordsOk State.reset ∧ Memory.wf State.reset.buf = true

/-- Every step keeps the invariant of R103. -/
def Obligations.StepKeepsTheInvariant : Prop :=
  ∀ s t : State, Inv s → step s = .next t → Inv t

/-- Every operation, whatever calls it, keeps the canonical form of memory. -/
def Obligations.ExecKeepsMemoryCanonical : Prop :=
  ∀ (i : Instr) (s t : State), Memory.wf s.buf = true → exec i s = .next t → Memory.wf t.buf = true

/-- Under the invariant every step answers a next state: no `MemRead` is out of range (R33) and nothing is refused. -/
def Obligations.NoStepStopsTheMachine : Prop :=
  ∀ s : State, Inv s → ∃ t, step s = .next t

/-- Every step keeps the round trip so far (R102). -/
def Obligations.StepKeepsTheRoundTrip : Prop :=
  ∀ s t : State, Inv s → RoundTrip s → step s = .next t → RoundTrip t

/-- Every step keeps the records what R22, R23 and R83 say they are. -/
def Obligations.StepKeepsTheRecords : Prop :=
  ∀ s t : State, RecordsOk s → step s = .next t → RecordsOk t

/-- The round trip of a whole run, for every input: if it ends in `Parsed`, the input is the signature and the records'
chunks in order, each payload as long as its length says. It is what R102 marks "derived: from rule R97, rule R99 and
rule R100". -/
def Obligations.ParsedRunRoundTrips : Prop :=
  ∀ (bytes : List Byte) (k : Nat) (t : State),
    after k (loadAndStart bytes) = some t → t.state = .parsed →
    bytes = Config.sig ++ t.chunks.flatMap encodeRecord ∧
      (∀ r ∈ t.chunks, r.payload.length = r.length.toNat) ∧ t.chunkCount = t.chunks.length ∧
      t.cursor = bytes.length

/-- Progress (R104): from a parse in progress that the host leaves alone, a terminal state is reached within
`floor(rem / 12) + 1` steps. -/
def Obligations.ParseEndsWithinTheBound : Prop :=
  ∀ s : State, Inv s → s.state = .parsing → s.host = [] →
    ∃ k t, k ≤ s.rem / 12 + 1 ∧ after k s = some t ∧ t.done = true

/-- Retrying (R137): reset, load of the same bytes and start end in the same architectural state, whatever came
before. -/
def Obligations.RetryReachesTheSameState : Prop :=
  ∀ (s s' : State) (bytes : List Byte),
    s.host = [some .reset, some (.load bytes), some .start] → s'.host = s.host →
    ∀ k, 3 ≤ k → ∃ t t', after k s = some t ∧ after k s' = some t' ∧ t.arch = t'.arch

/-- The byte-serial refinement (R105, the spec's decision D4; log entry 16) reaches the end state of the chunk step,
within one micro-step per byte of the buffer. -/
def Obligations.SerialReachesTheSameEndState : Prop :=
  ∀ s : State, Inv s → s.state = .parsing → 0 < s.rem →
    ∃ t u, serialChunk Config.current s s.rem = some (.next t) ∧ exec .frmChunk s = .next u ∧ t.arch = u.arch

/-- R102: "for any valid container byte sequence with N chunks, parsing yields exactly N records in stream order". The
signature and any header chunks (the chunks this hardware's registry decodes) end in `Parsed` with their records in order,
after the load, the start, one step a chunk and the termination. -/
def Obligations.HeaderChunksAreParsed : Prop :=
  ∀ rs : List Record,
    (∀ r ∈ rs, r.typeTag.key = Config.keyIhdr ∧ 13 ≤ r.payload.length ∧ r.payload.length = r.length.toNat) →
    ∃ t, after (rs.length + 3) (loadAndStart (Config.sig ++ rs.flatMap encodeRecord)) = some t ∧
      t.state = .parsed ∧ t.faultCode = none ∧ t.chunkCount = rs.length ∧
      t.chunks = rs.map (fun r => headerOf r.typeTag r.length r.payload r.storedChecksum)

/-- The machine takes its parameters as arguments (R5, R11; log entry 12): this hardware is the machine at their current
values, and the open ones, `AW` and `MAX_CHUNKS`, change nothing of a step within their bounds. -/
def Obligations.MachineTakesItsParameters : Prop :=
  (∀ (i : Instr) (s : State), exec i s = execWith Config.current i s) ∧
  (∀ s : State, step s = stepWith Config.current s) ∧
  State.reset = State.resetWith Config.current ∧
  (∀ (aw maxChunks : Option Nat) (s : State),
    (∀ bytes rest, s.host = some (.load bytes) :: rest →
      ({ Config.current with aw := aw } : Config).fits bytes.length = true) →
    ({ Config.current with maxChunks := maxChunks } : Config).full s.chunkCount = false →
    stepWith { Config.current with aw := aw, maxChunks := maxChunks } s = step s)

/-- Whatever the parameters, every step keeps the invariant of R103. -/
def Obligations.EveryParameterSettingKeepsTheInvariant : Prop :=
  ∀ (cfg : Config) (s t : State), Inv s → stepWith cfg s = .next t → Inv t
end

