-- ==== Sys2Proof/Laws/State.lean ====
section
/-!
SUPPORT. One lemma per field per named update of State, each true by rfl, so that no proof unfolds an update.
-/

namespace Sys2Proof.Machine

variable (s : State)

/-! `State.setSlices` -/

@[simp] theorem State.setSlices_buf (tag : Tag) (length checksum : Word) : (s.setSlices tag length checksum).buf = s.buf := rfl
@[simp] theorem State.setSlices_bufLen (tag : Tag) (length checksum : Word) : (s.setSlices tag length checksum).bufLen = s.bufLen := rfl
@[simp] theorem State.setSlices_state (tag : Tag) (length checksum : Word) : (s.setSlices tag length checksum).state = s.state := rfl
@[simp] theorem State.setSlices_cursor (tag : Tag) (length checksum : Word) : (s.setSlices tag length checksum).cursor = s.cursor := rfl
@[simp] theorem State.setSlices_chunks (tag : Tag) (length checksum : Word) : (s.setSlices tag length checksum).chunks = s.chunks := rfl
@[simp] theorem State.setSlices_chunkCount (tag : Tag) (length checksum : Word) : (s.setSlices tag length checksum).chunkCount = s.chunkCount := rfl
@[simp] theorem State.setSlices_faultCode (tag : Tag) (length checksum : Word) : (s.setSlices tag length checksum).faultCode = s.faultCode := rfl
@[simp] theorem State.setSlices_faultOffset (tag : Tag) (length checksum : Word) : (s.setSlices tag length checksum).faultOffset = s.faultOffset := rfl
@[simp] theorem State.setSlices_len (tag : Tag) (length checksum : Word) : (s.setSlices tag length checksum).len = length := rfl
@[simp] theorem State.setSlices_tag (tag : Tag) (length checksum : Word) : (s.setSlices tag length checksum).tag = tag := rfl
@[simp] theorem State.setSlices_scrc (tag : Tag) (length checksum : Word) : (s.setSlices tag length checksum).scrc = checksum := rfl
@[simp] theorem State.setSlices_crcReg (tag : Tag) (length checksum : Word) : (s.setSlices tag length checksum).crcReg = s.crcReg := rfl
@[simp] theorem State.setSlices_ccrc (tag : Tag) (length checksum : Word) : (s.setSlices tag length checksum).ccrc = s.ccrc := rfl
@[simp] theorem State.setSlices_result (tag : Tag) (length checksum : Word) : (s.setSlices tag length checksum).result = s.result := rfl
@[simp] theorem State.setSlices_readData (tag : Tag) (length checksum : Word) : (s.setSlices tag length checksum).readData = s.readData := rfl
@[simp] theorem State.setSlices_freeIndex (tag : Tag) (length checksum : Word) : (s.setSlices tag length checksum).freeIndex = s.freeIndex := rfl
@[simp] theorem State.setSlices_host (tag : Tag) (length checksum : Word) : (s.setSlices tag length checksum).host = s.host := rfl
@[simp] theorem State.setSlices_arch (tag : Tag) (length checksum : Word) : (s.setSlices tag length checksum).arch = s.arch := rfl
@[simp] theorem State.setSlices_rem (tag : Tag) (length checksum : Word) : (s.setSlices tag length checksum).rem = s.rem := rfl

/-! `State.setHead` -/

@[simp] theorem State.setHead_buf (length : Word) (tag : Tag) : (s.setHead length tag).buf = s.buf := rfl
@[simp] theorem State.setHead_bufLen (length : Word) (tag : Tag) : (s.setHead length tag).bufLen = s.bufLen := rfl
@[simp] theorem State.setHead_state (length : Word) (tag : Tag) : (s.setHead length tag).state = s.state := rfl
@[simp] theorem State.setHead_cursor (length : Word) (tag : Tag) : (s.setHead length tag).cursor = s.cursor := rfl
@[simp] theorem State.setHead_chunks (length : Word) (tag : Tag) : (s.setHead length tag).chunks = s.chunks := rfl
@[simp] theorem State.setHead_chunkCount (length : Word) (tag : Tag) : (s.setHead length tag).chunkCount = s.chunkCount := rfl
@[simp] theorem State.setHead_faultCode (length : Word) (tag : Tag) : (s.setHead length tag).faultCode = s.faultCode := rfl
@[simp] theorem State.setHead_faultOffset (length : Word) (tag : Tag) : (s.setHead length tag).faultOffset = s.faultOffset := rfl
@[simp] theorem State.setHead_len (length : Word) (tag : Tag) : (s.setHead length tag).len = length := rfl
@[simp] theorem State.setHead_tag (length : Word) (tag : Tag) : (s.setHead length tag).tag = tag := rfl
@[simp] theorem State.setHead_scrc (length : Word) (tag : Tag) : (s.setHead length tag).scrc = s.scrc := rfl
@[simp] theorem State.setHead_crcReg (length : Word) (tag : Tag) : (s.setHead length tag).crcReg = s.crcReg := rfl
@[simp] theorem State.setHead_ccrc (length : Word) (tag : Tag) : (s.setHead length tag).ccrc = s.ccrc := rfl
@[simp] theorem State.setHead_result (length : Word) (tag : Tag) : (s.setHead length tag).result = s.result := rfl
@[simp] theorem State.setHead_readData (length : Word) (tag : Tag) : (s.setHead length tag).readData = s.readData := rfl
@[simp] theorem State.setHead_freeIndex (length : Word) (tag : Tag) : (s.setHead length tag).freeIndex = s.freeIndex := rfl
@[simp] theorem State.setHead_host (length : Word) (tag : Tag) : (s.setHead length tag).host = s.host := rfl
@[simp] theorem State.setHead_arch (length : Word) (tag : Tag) : (s.setHead length tag).arch = s.arch := rfl
@[simp] theorem State.setHead_rem (length : Word) (tag : Tag) : (s.setHead length tag).rem = s.rem := rfl

/-! `State.setTag` -/

@[simp] theorem State.setTag_buf (tag : Tag) : (s.setTag tag).buf = s.buf := rfl
@[simp] theorem State.setTag_bufLen (tag : Tag) : (s.setTag tag).bufLen = s.bufLen := rfl
@[simp] theorem State.setTag_state (tag : Tag) : (s.setTag tag).state = s.state := rfl
@[simp] theorem State.setTag_cursor (tag : Tag) : (s.setTag tag).cursor = s.cursor := rfl
@[simp] theorem State.setTag_chunks (tag : Tag) : (s.setTag tag).chunks = s.chunks := rfl
@[simp] theorem State.setTag_chunkCount (tag : Tag) : (s.setTag tag).chunkCount = s.chunkCount := rfl
@[simp] theorem State.setTag_faultCode (tag : Tag) : (s.setTag tag).faultCode = s.faultCode := rfl
@[simp] theorem State.setTag_faultOffset (tag : Tag) : (s.setTag tag).faultOffset = s.faultOffset := rfl
@[simp] theorem State.setTag_len (tag : Tag) : (s.setTag tag).len = s.len := rfl
@[simp] theorem State.setTag_tag (tag : Tag) : (s.setTag tag).tag = tag := rfl
@[simp] theorem State.setTag_scrc (tag : Tag) : (s.setTag tag).scrc = s.scrc := rfl
@[simp] theorem State.setTag_crcReg (tag : Tag) : (s.setTag tag).crcReg = s.crcReg := rfl
@[simp] theorem State.setTag_ccrc (tag : Tag) : (s.setTag tag).ccrc = s.ccrc := rfl
@[simp] theorem State.setTag_result (tag : Tag) : (s.setTag tag).result = s.result := rfl
@[simp] theorem State.setTag_readData (tag : Tag) : (s.setTag tag).readData = s.readData := rfl
@[simp] theorem State.setTag_freeIndex (tag : Tag) : (s.setTag tag).freeIndex = s.freeIndex := rfl
@[simp] theorem State.setTag_host (tag : Tag) : (s.setTag tag).host = s.host := rfl
@[simp] theorem State.setTag_arch (tag : Tag) : (s.setTag tag).arch = s.arch := rfl
@[simp] theorem State.setTag_rem (tag : Tag) : (s.setTag tag).rem = s.rem := rfl

/-! `State.setCrcReg` -/

@[simp] theorem State.setCrcReg_buf (r : Word) : (s.setCrcReg r).buf = s.buf := rfl
@[simp] theorem State.setCrcReg_bufLen (r : Word) : (s.setCrcReg r).bufLen = s.bufLen := rfl
@[simp] theorem State.setCrcReg_state (r : Word) : (s.setCrcReg r).state = s.state := rfl
@[simp] theorem State.setCrcReg_cursor (r : Word) : (s.setCrcReg r).cursor = s.cursor := rfl
@[simp] theorem State.setCrcReg_chunks (r : Word) : (s.setCrcReg r).chunks = s.chunks := rfl
@[simp] theorem State.setCrcReg_chunkCount (r : Word) : (s.setCrcReg r).chunkCount = s.chunkCount := rfl
@[simp] theorem State.setCrcReg_faultCode (r : Word) : (s.setCrcReg r).faultCode = s.faultCode := rfl
@[simp] theorem State.setCrcReg_faultOffset (r : Word) : (s.setCrcReg r).faultOffset = s.faultOffset := rfl
@[simp] theorem State.setCrcReg_len (r : Word) : (s.setCrcReg r).len = s.len := rfl
@[simp] theorem State.setCrcReg_tag (r : Word) : (s.setCrcReg r).tag = s.tag := rfl
@[simp] theorem State.setCrcReg_scrc (r : Word) : (s.setCrcReg r).scrc = s.scrc := rfl
@[simp] theorem State.setCrcReg_crcReg (r : Word) : (s.setCrcReg r).crcReg = r := rfl
@[simp] theorem State.setCrcReg_ccrc (r : Word) : (s.setCrcReg r).ccrc = s.ccrc := rfl
@[simp] theorem State.setCrcReg_result (r : Word) : (s.setCrcReg r).result = s.result := rfl
@[simp] theorem State.setCrcReg_readData (r : Word) : (s.setCrcReg r).readData = s.readData := rfl
@[simp] theorem State.setCrcReg_freeIndex (r : Word) : (s.setCrcReg r).freeIndex = s.freeIndex := rfl
@[simp] theorem State.setCrcReg_host (r : Word) : (s.setCrcReg r).host = s.host := rfl
@[simp] theorem State.setCrcReg_arch (r : Word) : (s.setCrcReg r).arch = s.arch := rfl
@[simp] theorem State.setCrcReg_rem (r : Word) : (s.setCrcReg r).rem = s.rem := rfl

/-! `State.setSums` -/

@[simp] theorem State.setSums_buf (raw : Word) (masked : Checksum) : (s.setSums raw masked).buf = s.buf := rfl
@[simp] theorem State.setSums_bufLen (raw : Word) (masked : Checksum) : (s.setSums raw masked).bufLen = s.bufLen := rfl
@[simp] theorem State.setSums_state (raw : Word) (masked : Checksum) : (s.setSums raw masked).state = s.state := rfl
@[simp] theorem State.setSums_cursor (raw : Word) (masked : Checksum) : (s.setSums raw masked).cursor = s.cursor := rfl
@[simp] theorem State.setSums_chunks (raw : Word) (masked : Checksum) : (s.setSums raw masked).chunks = s.chunks := rfl
@[simp] theorem State.setSums_chunkCount (raw : Word) (masked : Checksum) : (s.setSums raw masked).chunkCount = s.chunkCount := rfl
@[simp] theorem State.setSums_faultCode (raw : Word) (masked : Checksum) : (s.setSums raw masked).faultCode = s.faultCode := rfl
@[simp] theorem State.setSums_faultOffset (raw : Word) (masked : Checksum) : (s.setSums raw masked).faultOffset = s.faultOffset := rfl
@[simp] theorem State.setSums_len (raw : Word) (masked : Checksum) : (s.setSums raw masked).len = s.len := rfl
@[simp] theorem State.setSums_tag (raw : Word) (masked : Checksum) : (s.setSums raw masked).tag = s.tag := rfl
@[simp] theorem State.setSums_scrc (raw : Word) (masked : Checksum) : (s.setSums raw masked).scrc = s.scrc := rfl
@[simp] theorem State.setSums_crcReg (raw : Word) (masked : Checksum) : (s.setSums raw masked).crcReg = raw := rfl
@[simp] theorem State.setSums_ccrc (raw : Word) (masked : Checksum) : (s.setSums raw masked).ccrc = masked := rfl
@[simp] theorem State.setSums_result (raw : Word) (masked : Checksum) : (s.setSums raw masked).result = s.result := rfl
@[simp] theorem State.setSums_readData (raw : Word) (masked : Checksum) : (s.setSums raw masked).readData = s.readData := rfl
@[simp] theorem State.setSums_freeIndex (raw : Word) (masked : Checksum) : (s.setSums raw masked).freeIndex = s.freeIndex := rfl
@[simp] theorem State.setSums_host (raw : Word) (masked : Checksum) : (s.setSums raw masked).host = s.host := rfl
@[simp] theorem State.setSums_arch (raw : Word) (masked : Checksum) : (s.setSums raw masked).arch = s.arch := rfl
@[simp] theorem State.setSums_rem (raw : Word) (masked : Checksum) : (s.setSums raw masked).rem = s.rem := rfl

/-! `State.setResult` -/

@[simp] theorem State.setResult_buf (r : Option OpResult) : (s.setResult r).buf = s.buf := rfl
@[simp] theorem State.setResult_bufLen (r : Option OpResult) : (s.setResult r).bufLen = s.bufLen := rfl
@[simp] theorem State.setResult_state (r : Option OpResult) : (s.setResult r).state = s.state := rfl
@[simp] theorem State.setResult_cursor (r : Option OpResult) : (s.setResult r).cursor = s.cursor := rfl
@[simp] theorem State.setResult_chunks (r : Option OpResult) : (s.setResult r).chunks = s.chunks := rfl
@[simp] theorem State.setResult_chunkCount (r : Option OpResult) : (s.setResult r).chunkCount = s.chunkCount := rfl
@[simp] theorem State.setResult_faultCode (r : Option OpResult) : (s.setResult r).faultCode = s.faultCode := rfl
@[simp] theorem State.setResult_faultOffset (r : Option OpResult) : (s.setResult r).faultOffset = s.faultOffset := rfl
@[simp] theorem State.setResult_len (r : Option OpResult) : (s.setResult r).len = s.len := rfl
@[simp] theorem State.setResult_tag (r : Option OpResult) : (s.setResult r).tag = s.tag := rfl
@[simp] theorem State.setResult_scrc (r : Option OpResult) : (s.setResult r).scrc = s.scrc := rfl
@[simp] theorem State.setResult_crcReg (r : Option OpResult) : (s.setResult r).crcReg = s.crcReg := rfl
@[simp] theorem State.setResult_ccrc (r : Option OpResult) : (s.setResult r).ccrc = s.ccrc := rfl
@[simp] theorem State.setResult_result (r : Option OpResult) : (s.setResult r).result = r := rfl
@[simp] theorem State.setResult_readData (r : Option OpResult) : (s.setResult r).readData = s.readData := rfl
@[simp] theorem State.setResult_freeIndex (r : Option OpResult) : (s.setResult r).freeIndex = s.freeIndex := rfl
@[simp] theorem State.setResult_host (r : Option OpResult) : (s.setResult r).host = s.host := rfl
@[simp] theorem State.setResult_arch (r : Option OpResult) : (s.setResult r).arch = s.arch := rfl
@[simp] theorem State.setResult_rem (r : Option OpResult) : (s.setResult r).rem = s.rem := rfl

/-! `State.setReadData` -/

@[simp] theorem State.setReadData_buf (d : ReadData) : (s.setReadData d).buf = s.buf := rfl
@[simp] theorem State.setReadData_bufLen (d : ReadData) : (s.setReadData d).bufLen = s.bufLen := rfl
@[simp] theorem State.setReadData_state (d : ReadData) : (s.setReadData d).state = s.state := rfl
@[simp] theorem State.setReadData_cursor (d : ReadData) : (s.setReadData d).cursor = s.cursor := rfl
@[simp] theorem State.setReadData_chunks (d : ReadData) : (s.setReadData d).chunks = s.chunks := rfl
@[simp] theorem State.setReadData_chunkCount (d : ReadData) : (s.setReadData d).chunkCount = s.chunkCount := rfl
@[simp] theorem State.setReadData_faultCode (d : ReadData) : (s.setReadData d).faultCode = s.faultCode := rfl
@[simp] theorem State.setReadData_faultOffset (d : ReadData) : (s.setReadData d).faultOffset = s.faultOffset := rfl
@[simp] theorem State.setReadData_len (d : ReadData) : (s.setReadData d).len = s.len := rfl
@[simp] theorem State.setReadData_tag (d : ReadData) : (s.setReadData d).tag = s.tag := rfl
@[simp] theorem State.setReadData_scrc (d : ReadData) : (s.setReadData d).scrc = s.scrc := rfl
@[simp] theorem State.setReadData_crcReg (d : ReadData) : (s.setReadData d).crcReg = s.crcReg := rfl
@[simp] theorem State.setReadData_ccrc (d : ReadData) : (s.setReadData d).ccrc = s.ccrc := rfl
@[simp] theorem State.setReadData_result (d : ReadData) : (s.setReadData d).result = s.result := rfl
@[simp] theorem State.setReadData_readData (d : ReadData) : (s.setReadData d).readData = some d := rfl
@[simp] theorem State.setReadData_freeIndex (d : ReadData) : (s.setReadData d).freeIndex = s.freeIndex := rfl
@[simp] theorem State.setReadData_host (d : ReadData) : (s.setReadData d).host = s.host := rfl
@[simp] theorem State.setReadData_arch (d : ReadData) : (s.setReadData d).arch = s.arch := rfl
@[simp] theorem State.setReadData_rem (d : ReadData) : (s.setReadData d).rem = s.rem := rfl

/-! `State.takeFree` -/

@[simp] theorem State.takeFree_buf : (s.takeFree).buf = s.buf := rfl
@[simp] theorem State.takeFree_bufLen : (s.takeFree).bufLen = s.bufLen := rfl
@[simp] theorem State.takeFree_state : (s.takeFree).state = s.state := rfl
@[simp] theorem State.takeFree_cursor : (s.takeFree).cursor = s.cursor := rfl
@[simp] theorem State.takeFree_chunks : (s.takeFree).chunks = s.chunks := rfl
@[simp] theorem State.takeFree_chunkCount : (s.takeFree).chunkCount = s.chunkCount := rfl
@[simp] theorem State.takeFree_faultCode : (s.takeFree).faultCode = s.faultCode := rfl
@[simp] theorem State.takeFree_faultOffset : (s.takeFree).faultOffset = s.faultOffset := rfl
@[simp] theorem State.takeFree_len : (s.takeFree).len = s.len := rfl
@[simp] theorem State.takeFree_tag : (s.takeFree).tag = s.tag := rfl
@[simp] theorem State.takeFree_scrc : (s.takeFree).scrc = s.scrc := rfl
@[simp] theorem State.takeFree_crcReg : (s.takeFree).crcReg = s.crcReg := rfl
@[simp] theorem State.takeFree_ccrc : (s.takeFree).ccrc = s.ccrc := rfl
@[simp] theorem State.takeFree_result : (s.takeFree).result = s.result := rfl
@[simp] theorem State.takeFree_readData : (s.takeFree).readData = s.readData := rfl
@[simp] theorem State.takeFree_freeIndex : (s.takeFree).freeIndex = s.freeIndex + 1 := rfl
@[simp] theorem State.takeFree_host : (s.takeFree).host = s.host := rfl
@[simp] theorem State.takeFree_arch : (s.takeFree).arch = s.arch := rfl
@[simp] theorem State.takeFree_rem : (s.takeFree).rem = s.rem := rfl

/-! `State.setHost` -/

@[simp] theorem State.setHost_buf (h : List (Option HostEvent)) : (s.setHost h).buf = s.buf := rfl
@[simp] theorem State.setHost_bufLen (h : List (Option HostEvent)) : (s.setHost h).bufLen = s.bufLen := rfl
@[simp] theorem State.setHost_state (h : List (Option HostEvent)) : (s.setHost h).state = s.state := rfl
@[simp] theorem State.setHost_cursor (h : List (Option HostEvent)) : (s.setHost h).cursor = s.cursor := rfl
@[simp] theorem State.setHost_chunks (h : List (Option HostEvent)) : (s.setHost h).chunks = s.chunks := rfl
@[simp] theorem State.setHost_chunkCount (h : List (Option HostEvent)) : (s.setHost h).chunkCount = s.chunkCount := rfl
@[simp] theorem State.setHost_faultCode (h : List (Option HostEvent)) : (s.setHost h).faultCode = s.faultCode := rfl
@[simp] theorem State.setHost_faultOffset (h : List (Option HostEvent)) : (s.setHost h).faultOffset = s.faultOffset := rfl
@[simp] theorem State.setHost_len (h : List (Option HostEvent)) : (s.setHost h).len = s.len := rfl
@[simp] theorem State.setHost_tag (h : List (Option HostEvent)) : (s.setHost h).tag = s.tag := rfl
@[simp] theorem State.setHost_scrc (h : List (Option HostEvent)) : (s.setHost h).scrc = s.scrc := rfl
@[simp] theorem State.setHost_crcReg (h : List (Option HostEvent)) : (s.setHost h).crcReg = s.crcReg := rfl
@[simp] theorem State.setHost_ccrc (h : List (Option HostEvent)) : (s.setHost h).ccrc = s.ccrc := rfl
@[simp] theorem State.setHost_result (h : List (Option HostEvent)) : (s.setHost h).result = s.result := rfl
@[simp] theorem State.setHost_readData (h : List (Option HostEvent)) : (s.setHost h).readData = s.readData := rfl
@[simp] theorem State.setHost_freeIndex (h : List (Option HostEvent)) : (s.setHost h).freeIndex = s.freeIndex := rfl
@[simp] theorem State.setHost_host (h : List (Option HostEvent)) : (s.setHost h).host = h := rfl
@[simp] theorem State.setHost_arch (h : List (Option HostEvent)) : (s.setHost h).arch = s.arch := rfl
@[simp] theorem State.setHost_rem (h : List (Option HostEvent)) : (s.setHost h).rem = s.rem := rfl

/-! `State.loadBytes` -/

@[simp] theorem State.loadBytes_buf (bytes : List Byte) : (s.loadBytes bytes).buf = Memory.ofBytes bytes := rfl
@[simp] theorem State.loadBytes_bufLen (bytes : List Byte) : (s.loadBytes bytes).bufLen = bytes.length := rfl
@[simp] theorem State.loadBytes_state (bytes : List Byte) : (s.loadBytes bytes).state = s.state := rfl
@[simp] theorem State.loadBytes_cursor (bytes : List Byte) : (s.loadBytes bytes).cursor = s.cursor := rfl
@[simp] theorem State.loadBytes_chunks (bytes : List Byte) : (s.loadBytes bytes).chunks = s.chunks := rfl
@[simp] theorem State.loadBytes_chunkCount (bytes : List Byte) : (s.loadBytes bytes).chunkCount = s.chunkCount := rfl
@[simp] theorem State.loadBytes_faultCode (bytes : List Byte) : (s.loadBytes bytes).faultCode = s.faultCode := rfl
@[simp] theorem State.loadBytes_faultOffset (bytes : List Byte) : (s.loadBytes bytes).faultOffset = s.faultOffset := rfl
@[simp] theorem State.loadBytes_len (bytes : List Byte) : (s.loadBytes bytes).len = s.len := rfl
@[simp] theorem State.loadBytes_tag (bytes : List Byte) : (s.loadBytes bytes).tag = s.tag := rfl
@[simp] theorem State.loadBytes_scrc (bytes : List Byte) : (s.loadBytes bytes).scrc = s.scrc := rfl
@[simp] theorem State.loadBytes_crcReg (bytes : List Byte) : (s.loadBytes bytes).crcReg = s.crcReg := rfl
@[simp] theorem State.loadBytes_ccrc (bytes : List Byte) : (s.loadBytes bytes).ccrc = s.ccrc := rfl
@[simp] theorem State.loadBytes_result (bytes : List Byte) : (s.loadBytes bytes).result = s.result := rfl
@[simp] theorem State.loadBytes_readData (bytes : List Byte) : (s.loadBytes bytes).readData = s.readData := rfl
@[simp] theorem State.loadBytes_freeIndex (bytes : List Byte) : (s.loadBytes bytes).freeIndex = s.freeIndex := rfl
@[simp] theorem State.loadBytes_host (bytes : List Byte) : (s.loadBytes bytes).host = s.host := rfl

/-! `raise` -/

@[simp] theorem raise_buf (c : Condition) : (raise c s).buf = s.buf := rfl
@[simp] theorem raise_bufLen (c : Condition) : (raise c s).bufLen = s.bufLen := rfl
@[simp] theorem raise_state (c : Condition) : (raise c s).state = .failed := rfl
@[simp] theorem raise_cursor (c : Condition) : (raise c s).cursor = s.cursor := rfl
@[simp] theorem raise_chunks (c : Condition) : (raise c s).chunks = [] := rfl
@[simp] theorem raise_chunkCount (c : Condition) : (raise c s).chunkCount = 0 := rfl
@[simp] theorem raise_faultCode (c : Condition) : (raise c s).faultCode = some c := rfl
@[simp] theorem raise_faultOffset (c : Condition) : (raise c s).faultOffset = s.cursor := rfl
@[simp] theorem raise_len (c : Condition) : (raise c s).len = s.len := rfl
@[simp] theorem raise_tag (c : Condition) : (raise c s).tag = s.tag := rfl
@[simp] theorem raise_scrc (c : Condition) : (raise c s).scrc = s.scrc := rfl
@[simp] theorem raise_crcReg (c : Condition) : (raise c s).crcReg = s.crcReg := rfl
@[simp] theorem raise_ccrc (c : Condition) : (raise c s).ccrc = s.ccrc := rfl
@[simp] theorem raise_result (c : Condition) : (raise c s).result = s.result := rfl
@[simp] theorem raise_readData (c : Condition) : (raise c s).readData = s.readData := rfl
@[simp] theorem raise_freeIndex (c : Condition) : (raise c s).freeIndex = s.freeIndex := rfl
@[simp] theorem raise_host (c : Condition) : (raise c s).host = s.host := rfl
@[simp] theorem raise_rem (c : Condition) : (raise c s).rem = s.rem := rfl

/-! `appendAdvance` -/

@[simp] theorem appendAdvance_buf (r : Record) : (appendAdvance r s).buf = s.buf := rfl
@[simp] theorem appendAdvance_bufLen (r : Record) : (appendAdvance r s).bufLen = s.bufLen := rfl
@[simp] theorem appendAdvance_state (r : Record) : (appendAdvance r s).state = s.state := rfl
@[simp] theorem appendAdvance_cursor (r : Record) : (appendAdvance r s).cursor = s.cursor + Config.chunkOverhead + s.len.toNat := rfl
@[simp] theorem appendAdvance_chunks (r : Record) : (appendAdvance r s).chunks = s.chunks ++ [r] := rfl
@[simp] theorem appendAdvance_chunkCount (r : Record) : (appendAdvance r s).chunkCount = s.chunkCount + 1 := rfl
@[simp] theorem appendAdvance_faultCode (r : Record) : (appendAdvance r s).faultCode = s.faultCode := rfl
@[simp] theorem appendAdvance_faultOffset (r : Record) : (appendAdvance r s).faultOffset = s.faultOffset := rfl
@[simp] theorem appendAdvance_len (r : Record) : (appendAdvance r s).len = s.len := rfl
@[simp] theorem appendAdvance_tag (r : Record) : (appendAdvance r s).tag = s.tag := rfl
@[simp] theorem appendAdvance_scrc (r : Record) : (appendAdvance r s).scrc = s.scrc := rfl
@[simp] theorem appendAdvance_crcReg (r : Record) : (appendAdvance r s).crcReg = s.crcReg := rfl
@[simp] theorem appendAdvance_ccrc (r : Record) : (appendAdvance r s).ccrc = s.ccrc := rfl
@[simp] theorem appendAdvance_result (r : Record) : (appendAdvance r s).result = s.result := rfl
@[simp] theorem appendAdvance_readData (r : Record) : (appendAdvance r s).readData = s.readData := rfl
@[simp] theorem appendAdvance_freeIndex (r : Record) : (appendAdvance r s).freeIndex = s.freeIndex := rfl
@[simp] theorem appendAdvance_host (r : Record) : (appendAdvance r s).host = s.host := rfl

end Sys2Proof.Machine
end

