-- ==== Sys2Proof/Laws/Decode.lean ====
section
/-!
SUPPORT. Big-endian fields there and back, and the shapes of encoded elements.
-/

namespace Sys2Proof

/-- `be32` as a number is the sum of R31. -/
theorem be32_toNat (b0 b1 b2 b3 : Byte) :
    (be32 b0 b1 b2 b3).toNat = b0.toNat * 2 ^ 24 + b1.toNat * 2 ^ 16 + b2.toNat * 2 ^ 8 + b3.toNat := by
  have h0 := b0.isLt
  have h1 := b1.isLt
  have h2 := b2.isLt
  have h3 := b3.isLt
  simp only [be32, BitVec.toNat_ofNat]
  omega

/-- The bytes of a word assemble to it. -/
theorem be32List_be32Bytes (w : Word) : be32List (be32Bytes w) = some w := by
  have h := w.isLt
  simp only [be32Bytes, be32List, Option.some.injEq]
  apply BitVec.eq_of_toNat_eq
  rw [be32_toNat]
  simp only [BitVec.toNat_ofNat]
  omega

/-- The bytes of an assembled word are those it was assembled from. -/
theorem be32Bytes_be32 (b0 b1 b2 b3 : Byte) : be32Bytes (be32 b0 b1 b2 b3) = [b0, b1, b2, b3] := by
  have h0 := b0.isLt
  have h1 := b1.isLt
  have h2 := b2.isLt
  have h3 := b3.isLt
  have h := be32_toNat b0 b1 b2 b3
  simp only [be32Bytes, List.cons.injEq, and_true]
  refine ⟨?_, ?_, ?_, ?_⟩ <;> apply BitVec.eq_of_toNat_eq <;> simp only [BitVec.toNat_ofNat, h] <;> omega

@[simp] theorem be32Bytes_length (w : Word) : (be32Bytes w).length = 4 := rfl

@[simp] theorem Tag.bytes_length (t : Tag) : t.bytes.length = 4 := rfl

@[simp] theorem tagOfList_bytes (t : Tag) : tagOfList t.bytes = some t := rfl

/-- An element is `12 + L` bytes when its payload is `L` bytes (R53). -/
theorem encodeChunk_length (length : Word) (tag : Tag) (payload : List Byte) (checksum : Word) :
    (encodeChunk length tag payload checksum).length = 12 + payload.length := by
  simp [encodeChunk]
  omega

/-- `be32` is the concatenation of the bytes' bits. -/
theorem be32_eq_append (b0 b1 b2 b3 : Byte) : be32 b0 b1 b2 b3 = b0 ++ b1 ++ b2 ++ b3 := by
  apply BitVec.eq_of_toNat_eq
  rw [be32_toNat]
  simp only [BitVec.toNat_append]
  rw [← Nat.shiftLeft_add_eq_or_of_lt b3.isLt, ← Nat.shiftLeft_add_eq_or_of_lt b2.isLt,
    ← Nat.shiftLeft_add_eq_or_of_lt b1.isLt]
  simp only [Nat.shiftLeft_eq]
  omega

/-- A tag with a header key has only valid bytes (R57). -/
theorem tagByteValid_of_upper :
    ∀ b : Byte, (upper b = 0x49 ∨ upper b = 0x48 ∨ upper b = 0x44 ∨ upper b = 0x52) →
      tagByteValid .ascii7 b = true := by decide +kernel

theorem tagValid_of_key {t : Tag} (h : t.key = Config.keyIhdr) : tagValid Config.current.tagCharset t = true := by
  simp only [Tag.key, Config.keyIhdr, Tag.mk.injEq] at h
  obtain ⟨h0, h1, h2, h3⟩ := h
  simp only [Config.current, tagValid, Bool.and_eq_true]
  exact ⟨⟨⟨tagByteValid_of_upper _ (.inl h0), tagByteValid_of_upper _ (.inr (.inl h1))⟩,
    tagByteValid_of_upper _ (.inr (.inr (.inl h2)))⟩, tagByteValid_of_upper _ (.inr (.inr (.inr h3)))⟩

/-- Format CHUNK from its length and tag on (R47). -/
theorem decodeChunk_eq (cfg : Config) (len : Word) (tag : Tag) (later : List Byte) (h : 4 ≤ later.length) :
    decodeChunk cfg (be32Bytes len ++ tag.bytes ++ later) = decodeBody cfg len tag later := by
  have hb : be32List (be32Bytes len) = some len := be32List_be32Bytes len
  unfold decodeChunk
  rw [if_neg (by simp [Config.chunkOverhead]; omega)]
  simp only [be32Bytes, be32List, Option.some.injEq] at hb
  simp only [be32Bytes, Tag.bytes, List.cons_append, List.nil_append, hb]

/-- A payload and a stored checksum after a tag that is not invalid (R47). -/
theorem decodeBody_complete (cfg : Config) (len : Word) (tag : Tag) (payload : List Byte) (crc : Word)
    (rest : List Byte) (hp : payload.length = len.toNat) (hc : classify cfg tag ≠ .invalid) :
    decodeBody cfg len tag (payload ++ be32Bytes crc ++ rest) = .op (decodeTag cfg tag len payload crc) rest := by
  have hb : be32List (be32Bytes crc) = some crc := be32List_be32Bytes crc
  simp only [be32Bytes, be32List, Option.some.injEq] at hb
  unfold decodeBody
  rw [if_neg hc]
  simp only [List.append_assoc, ← hp, List.take_left, List.drop_left, be32Bytes, List.cons_append, List.nil_append, hb]

/-- Everything `decodeBody` can answer as an operation: an invalid tag and what is past its
element, or a complete chunk. -/
theorem decodeBody_cases {cfg : Config} {len : Word} {tag : Tag} {later rest : List Byte} {i : Instr}
    (h : decodeBody cfg len tag later = .op i rest) :
    (classify cfg tag = .invalid ∧ i = .tagInvalid tag ∧ rest = later.drop (len.toNat + 4)) ∨
    (classify cfg tag ≠ .invalid ∧ ∃ payload crc, payload.length = len.toNat ∧
      later = payload ++ be32Bytes crc ++ rest ∧ i = decodeTag cfg tag len payload crc) := by
  unfold decodeBody at h
  split at h
  · rename_i hc
    injection h with hi hr
    exact .inl ⟨hc, hi.symm, hr.symm⟩
  · rename_i hc
    simp only at h
    generalize len.toNat = n at h ⊢
    split at h
    · rename_i c0 c1 c2 c3 r hd
      injection h with hi hr
      refine .inr ⟨hc, later.take n, be32 c0 c1 c2 c3, ?_, ?_, hi.symm⟩
      · have := congrArg List.length hd
        simp at this ⊢
        omega
      · rw [be32Bytes_be32, List.append_assoc, ← hr]
        conv_lhs => rw [← List.take_append_drop n later, hd]
        rfl
    · cases h

/-- The header fields are those of thirteen bytes or more (R52, R87). -/
theorem ihdrFields_isSome (payload : List Byte) : (ihdrFields payload).isSome = decide (13 ≤ payload.length) := by
  unfold ihdrFields
  split
  · simp
  · rename_i h
    have : ¬ 13 ≤ payload.length := by
      intro hlen
      match payload, hlen with
      | w0 :: w1 :: w2 :: w3 :: h0 :: h1 :: h2 :: h3 :: d :: c :: m :: f :: i :: rest, _ =>
        exact h w0 w1 w2 w3 h0 h1 h2 h3 d c m f i rest rfl
    simp [this]

/-- Under the current configuration `decode_ihdr` fails exactly below thirteen bytes (R87). -/
theorem decodeIhdr_current (payload : List Byte) : decodeIhdr Config.current payload = ihdrFields payload := by
  simp [decodeIhdr, Config.current]

/-- The current registry has the one key "IHDR" (R57, R90). -/
theorem lookupCtor_current (t : Tag) :
    lookupCtor Config.current.registry t = if t = Config.keyIhdr then some .header else none := by
  simp only [Config.current, Config.oneEntryRegistry, lookupCtor]
  by_cases h : t = Config.keyIhdr
  · simp [h]
  · have h' : ¬ Config.keyIhdr = t := fun e => h e.symm
    simp [h, h']

end Sys2Proof
end

