-- ==== Sys2Proof/Laws/Memory.lean ====
section
/-!
SUPPORT. The buffer: what a load leaves (canonical, exact, read back), and what `MemRead` answers on an exact buffer.
-/

namespace Sys2Proof.Machine

theorem Memory.wf_ofBytesAt (bytes : List Byte) : ∀ a, Memory.wf (Memory.ofBytesAt a bytes) = true := by
  induction bytes with
  | nil => intro a; rfl
  | cons b bs ih =>
    intro a
    cases bs with
    | nil => rfl
    | cons b' bs' =>
      have h := ih (a + 1)
      simp only [Memory.ofBytesAt] at h ⊢
      simp [Memory.wf, Memory.unlisted, h]

/-- A load leaves the canonical form (the only operation that writes the buffer, beside reset, which empties it). -/
theorem Memory.wf_ofBytes (bytes : List Byte) : Memory.wf (Memory.ofBytes bytes) = true :=
  Memory.wf_ofBytesAt bytes 0

theorem State.reset_buf_wf : Memory.wf State.reset.buf = true := rfl

theorem Memory.ofBytesAt_fst (bytes : List Byte) : ∀ a, (Memory.ofBytesAt a bytes).map Prod.fst = List.range' a bytes.length := by
  induction bytes with
  | nil => intro a; rfl
  | cons b bs ih => intro a; simp [Memory.ofBytesAt, ih, List.range'_succ]

/-- A load leaves exactly the addresses 0 to `BUF_LEN - 1` (R12). -/
theorem Memory.ofBytes_fst (bytes : List Byte) :
    (Memory.ofBytes bytes).map Prod.fst = List.range bytes.length := by
  rw [Memory.ofBytes, Memory.ofBytesAt_fst, List.range_eq_range']

theorem Memory.ofBytesAt_snd (bytes : List Byte) : ∀ a, (Memory.ofBytesAt a bytes).map Prod.snd = bytes := by
  induction bytes with
  | nil => intro a; rfl
  | cons b bs ih => intro a; simp [Memory.ofBytesAt, ih]

/-- The bytes of a loaded buffer are the bytes loaded (R40 (a)). -/
@[simp] theorem Memory.bytes_ofBytes (bytes : List Byte) : (Memory.ofBytes bytes).bytes = bytes :=
  Memory.ofBytesAt_snd bytes 0

theorem Memory.read_of_fst_range' :
    ∀ (m : Memory) (a n k : Nat), m.map Prod.fst = List.range' a n → m.read (a + k) = m.bytes[k]? := by
  intro m
  induction m with
  | nil => intro a n k h; simp [Memory.read, Memory.unlisted, Memory.bytes]
  | cons c rest ih =>
    intro a n k h
    obtain ⟨a', b⟩ := c
    cases n with
    | zero => simp at h
    | succ n =>
      rw [List.range'_succ] at h
      simp only [List.map_cons, List.cons.injEq] at h
      obtain ⟨rfl, h⟩ := h
      cases k with
      | zero => simp [Memory.read, Memory.bytes]
      | succ k =>
        have hk := ih (a' + 1) n k h
        have : a' ≠ a' + (k + 1) := by omega
        simp only [Memory.read, this, if_false, Memory.bytes, List.map_cons, List.getElem?_cons_succ]
        rw [show a' + (k + 1) = a' + 1 + k by omega]
        exact hk

/-- On an exact buffer an address reads as the byte at that position (R12). -/
theorem BufExact.read {s : State} (h : BufExact s) (a : Nat) : s.buf.read a = s.buf.bytes[a]? := by
  have := Memory.read_of_fst_range' s.buf 0 s.bufLen a (by rw [h, List.range_eq_range'])
  simpa using this

theorem BufExact.length {s : State} (h : BufExact s) : s.buf.bytes.length = s.bufLen := by
  have := congrArg List.length h
  simpa [Memory.bytes] using this

theorem Memory.readBytes_eq {m : Memory} (h : ∀ a, m.read a = m.bytes[a]?) :
    ∀ (n a : Nat), a + n ≤ m.bytes.length → m.readBytes a n = some ((m.bytes.drop a).take n) := by
  intro n
  induction n with
  | zero => intro a _; simp [Memory.readBytes]
  | succ n ih =>
    intro a ha
    have hlt : a < m.bytes.length := by omega
    simp only [Memory.readBytes, h a, ih (a + 1) (by omega)]
    rw [List.getElem?_eq_getElem hlt, List.drop_eq_getElem_cons hlt, List.take_succ_cons]

/-- `MemRead` on an exact buffer: everything it can do (R33). -/
theorem memRead_eq {s : State} (h : BufExact s) (a n : Nat) :
    memRead s a n = if a + n ≤ s.bufLen then some ((s.buf.bytes.drop a).take n) else none := by
  unfold memRead
  split
  · rename_i hle
    exact Memory.readBytes_eq (fun x => h.read x) n a (by rw [h.length]; exact hle)
  · rfl

/-- The bytes `MemRead` returns are as many as asked for (R33). -/
theorem Memory.readBytes_length {m : Memory} : ∀ (n a : Nat) (bs : List Byte), m.readBytes a n = some bs → bs.length = n := by
  intro n
  induction n with
  | zero => intro a bs h; simp [Memory.readBytes] at h; simp [← h]
  | succ n ih =>
    intro a bs h
    simp only [Memory.readBytes] at h
    split at h
    · rename_i b bs' hb hbs
      cases h
      simp [ih _ _ hbs]
    · cases h

theorem memRead_length {s : State} {a n : Nat} {bs : List Byte} (h : memRead s a n = some bs) : bs.length = n := by
  unfold memRead at h
  split at h
  · exact Memory.readBytes_length n a bs h
  · cases h

end Sys2Proof.Machine
end

