-- ==== Sys2Proof/Laws/Ops.lean ====
section
/-!
SUPPORT. What each shared operation can do, said once: the checksum fold, the failure transition, the record
operations, the signature check, the chunk step, one step.
-/

namespace Sys2Proof.Machine

/-- The engine splits over a concatenation (R68). -/
theorem crcBlock_append (a b : List Byte) (poly : Word) :
    ∀ init, crcBlock (a ++ b) poly init = crcBlock b poly (crcBlock a poly init) := by
  induction a with
  | nil => intro init; rfl
  | cons x xs ih => intro init; exact ih _

/-- Under the 40-bit mask the top byte of a computed checksum is all ones, so no stored checksum equals it (R83). -/
theorem crcMismatch_current (stored : Word) (tag : Tag) (payload : List Byte) :
    crcMismatch stored (computedChecksum Config.current tag payload) = true := by
  simp only [computedChecksum, maskChecksum, Config.current, FinalMask.bits, crcMismatch, bne_iff_ne, ne_eq]
  intro h
  have h39 := congrArg (fun w => w.getLsbD 39) h
  simp at h39

theorem raiseInChunk_parsing (c : Condition) {s : State} (h : s.state = .parsing) :
    raiseInChunk c s = raise c s := by simp [raiseInChunk, h]

theorem raiseInChunk_other (c : Condition) {s : State} (h : s.state ≠ .parsing) :
    raiseInChunk c s = s := by simp [raiseInChunk, h]

/-- The header fields by position are those the decoder reads (R52). -/
theorem ihdrFields_eq {payload : List Byte} (h : 13 ≤ payload.length) :
    ihdrFields payload = some (fieldsAt payload) := by
  match payload, h with
  | w0 :: w1 :: w2 :: w3 :: h0 :: h1 :: h2 :: h3 :: d :: c :: m :: f :: i :: rest, _ => rfl

theorem ihdrFields_none {payload : List Byte} (h : payload.length < 13) : ihdrFields payload = none := by
  have := ihdrFields_isSome payload
  rw [decide_eq_false (by omega)] at this
  simpa using this

/-- `REC.BASE` changes working registers alone (R84). -/
theorem recBase_eq (cfg : Config) (tag : Tag) (length : Word) (payload : List Byte) (checksum : Word) (s : State) :
    recBase cfg tag length payload checksum s =
      { s with
        len := length
        tag := tag
        scrc := checksum
        crcReg := rawChecksum tag payload
        ccrc := computedChecksum cfg tag payload
        result := some (.record (baseRecord tag length payload checksum (computedChecksum cfg tag payload))) } := rfl

/-- Everything `REC.DISPATCH` can do (R85): the record `make_chunk` gives, returned over changed working registers, or
its condition, raised, over changed working registers. -/
theorem recDispatch_cases (cfg : Config) (tag : Tag) (length : Word) (payload : List Byte) (checksum : Word)
    (s : State) :
    (∃ r, makeChunk cfg tag length payload checksum (computedChecksum cfg tag payload) = .ok r ∧
      recDispatch cfg tag length payload checksum s =
        (recBase cfg tag length payload checksum s).setResult (some (.record r))) ∨
    (∃ c s1, makeChunk cfg tag length payload checksum (computedChecksum cfg tag payload) = .error c ∧
      s1.arch = s.arch ∧ s1.host = s.host ∧ s1.freeIndex = s.freeIndex ∧ s1.readData = s.readData ∧ s1.result = none ∧
      recDispatch cfg tag length payload checksum s = raiseInChunk c s1) := by
  unfold makeChunk recDispatch
  cases hl : lookupCtor cfg.registry tag.key with
  | some c =>
    cases c
    simp only [recIhdr]
    cases hd : decodeIhdr cfg payload with
    | some h => exact .inl ⟨_, rfl, rfl⟩
    | none =>
      exact .inr ⟨_, (recBase cfg tag length payload checksum s).setResult none, rfl, rfl, rfl, rfl, rfl, rfl, rfl⟩
  | none =>
    cases hp : cfg.unknownPolicy with
    | fatal =>
      exact .inr ⟨_, (s.setSlices tag length checksum).setResult none, rfl, rfl, rfl, rfl, rfl, rfl, rfl⟩
    | base => exact .inl ⟨_, rfl, rfl⟩

/-- Everything the signature check can do when it answers a next state (R97). -/
theorem sigCheck_cases {s t : State} (h : sigCheck s = .next t) :
    (s.state ≠ .unparsed ∧ t = s) ∨
    (s.state = .unparsed ∧ t = raise .badSignature s) ∨
    (s.state = .unparsed ∧ 8 ≤ s.bufLen ∧ readSig s = some Config.sig ∧
      t = { s with cursor := Config.sigLen, state := .parsing }) := by
  unfold sigCheck at h
  split at h
  · rename_i hs
    split at h
    · cases h; exact .inr (.inl ⟨hs, rfl⟩)
    · rename_i hlen
      split at h
      · cases h
      · rename_i bytes hb
        split at h
        · rename_i he
          cases h
          exact .inr (.inr ⟨hs, by simpa [Config.sigLen] using hlen, by rw [hb, he], rfl⟩)
        · cases h; exact .inr (.inl ⟨hs, rfl⟩)
  · rename_i hs; cases h; exact .inl ⟨hs, rfl⟩

/-- Everything the chunk step can do when it answers a next state (R99, R124). -/
theorem frmChunk_cases {cfg : Config} {s t : State} (h : frmChunk cfg s = .next t) :
    (¬ (s.state = .parsing ∧ 0 < s.rem) ∧ t = s) ∨
    (s.state = .parsing ∧ 0 < s.rem ∧ s.rem < 12 ∧ t = raise .truncatedChunk s) ∨
    (s.state = .parsing ∧ 12 ≤ s.rem ∧ ∃ length tag,
      readLength s s.cursor = some length ∧ readTag s s.cursor = some tag ∧
      ((tagValid cfg.tagCharset tag = false ∧ t = raise .invalidTypeTag (s.setHead length tag)) ∨
       (tagValid cfg.tagCharset tag = true ∧ s.rem < 12 + length.toNat ∧
          t = raise .truncatedChunk (s.setHead length tag)) ∨
       (tagValid cfg.tagCharset tag = true ∧ 12 + length.toNat ≤ s.rem ∧ ∃ payload checksum,
          readPayload s s.cursor length.toNat = some payload ∧
          readStored s s.cursor length.toNat = some checksum ∧
          t = acceptRecord (recDispatch cfg tag length payload checksum (s.setHead length tag))))) := by
  unfold frmChunk at h
  split at h
  · rename_i hen
    split at h
    · cases h
    · split at h
      · rename_i h12
        cases h
        exact .inr (.inl ⟨hen.1, hen.2, h12, rfl⟩)
      · rename_i h12
        have h12' : 12 ≤ s.rem := by simpa [Config.chunkOverhead] using h12
        split at h
        · rename_i length tag hl ht
          refine .inr (.inr ⟨hen.1, h12', length, tag, hl, ht, ?_⟩)
          unfold chunkBody at h
          split at h
          · rename_i hv
            split at h
            · rename_i hr
              cases h
              exact .inr (.inl ⟨hv, by simpa [Config.chunkOverhead] using hr, rfl⟩)
            · rename_i hr
              have hr' : 12 + length.toNat ≤ s.rem := by simpa [Config.chunkOverhead] using hr
              split at h
              · rename_i payload checksum hp hc
                cases h
                exact .inr (.inr ⟨hv, hr', payload, checksum, hp, hc, rfl⟩)
              · cases h
          · rename_i hv
            cases h
            have hv' : tagValid cfg.tagCharset tag = false := by simpa using hv
            refine .inl ⟨hv', ?_⟩
            simp [tagInvalid, hv', raiseInChunk, hen.1, State.setTag, State.setHead]
        · cases h
  · rename_i hen; cases h; exact .inl ⟨hen, rfl⟩

/-- An accepted dispatch appends what `make_chunk` gave, or has raised (R99 (e), (f)). -/
theorem acceptRecord_cases (cfg : Config) (tag : Tag) (length : Word) (payload : List Byte) (checksum : Word)
    {s : State} (hs : s.state = .parsing) :
    (∃ r, makeChunk cfg tag length payload checksum (computedChecksum cfg tag payload) = .ok r ∧
      acceptRecord (recDispatch cfg tag length payload checksum s) =
        appendAdvance r ((recBase cfg tag length payload checksum s).setResult (some (.record r)))) ∨
    (∃ c s1, makeChunk cfg tag length payload checksum (computedChecksum cfg tag payload) = .error c ∧
      s1.arch = s.arch ∧ s1.host = s.host ∧ s1.freeIndex = s.freeIndex ∧ s1.readData = s.readData ∧
      acceptRecord (recDispatch cfg tag length payload checksum s) = raise c s1) := by
  obtain ⟨r, hr, he⟩ | ⟨c, s1, hc, ha, hh, hf, hd, hres, he⟩ := recDispatch_cases cfg tag length payload checksum s
  · exact .inl ⟨r, hr, by rw [he]; rfl⟩
  · refine .inr ⟨c, s1, hc, ha, hh, hf, hd, ?_⟩
    have hp : s1.state = .parsing := by
      have := congrArg Arch.state ha
      exact this.trans hs
    rw [he, raiseInChunk_parsing c hp]
    simp [acceptRecord, hres]

/-- This hardware's operation is the parametrised one at the current values (log entry 12). -/
theorem exec_eq (i : Instr) (s : State) : exec i s = execWith Config.current i s := by cases i <;> rfl

theorem blockStep_eq (s : State) : blockStep s = blockStepWith Config.current s := by
  unfold blockStep blockStepWith
  cases nextOp s with
  | some i => exact exec_eq i s
  | none => rfl

theorem step_eq (s : State) : step s = stepWith Config.current s := by
  unfold step stepWith
  split <;> simp only [exec_eq, blockStep_eq, *]

/-- Everything a step can be (R96, R29): an event of the host, the framer's own operation, or nothing. -/
theorem stepWith_cases (cfg : Config) (s : State) :
    (∃ e rest, s.host = some e :: rest ∧ stepWith cfg s = execWith cfg e.toInstr (s.setHost rest)) ∨
    (∃ s1, (s.host = none :: s1.host ∨ (s.host = [] ∧ s1.host = [])) ∧ s1 = s.setHost s1.host ∧
      ((∃ i, nextOp s1 = some i ∧ stepWith cfg s = execWith cfg i s1) ∨
        (nextOp s1 = none ∧ stepWith cfg s = .next s1))) := by
  have block (s1 : State) : (∃ i, nextOp s1 = some i ∧ blockStepWith cfg s1 = execWith cfg i s1) ∨
      (nextOp s1 = none ∧ blockStepWith cfg s1 = .next s1) := by
    unfold blockStepWith
    cases nextOp s1 with
    | some i => exact .inl ⟨i, rfl, rfl⟩
    | none => exact .inr ⟨rfl, rfl⟩
  unfold stepWith
  cases hh : s.host with
  | nil => exact .inr ⟨s, by simp [hh], rfl, block s⟩
  | cons e rest =>
    cases e with
    | some e => exact .inl ⟨e, rest, rfl, rfl⟩
    | none => exact .inr ⟨s.setHost rest, by simp, rfl, block _⟩

/-- The same of this hardware's step. -/
theorem step_cases (s : State) :
    (∃ e rest, s.host = some e :: rest ∧ step s = exec e.toInstr (s.setHost rest)) ∨
    (∃ s1, (s.host = none :: s1.host ∨ (s.host = [] ∧ s1.host = [])) ∧ s1 = s.setHost s1.host ∧
      ((∃ i, nextOp s1 = some i ∧ step s = exec i s1) ∨ (nextOp s1 = none ∧ step s = .next s1))) := by
  simp only [step_eq, exec_eq]
  exact stepWith_cases Config.current s

end Sys2Proof.Machine
end

