-- ==== Sys2Proof/Laws/Framer.lean ====
section
/-!
SUPPORT. What the framer reads on an exact buffer, in terms of the bytes that remain (R35, R98).
-/

namespace Sys2Proof.Machine

/-- On an exact buffer what remains is as long as `rem` (R98). -/
theorem remaining_length {s : State} (h : BufExact s) : s.remaining.length = s.rem := by
  simp [State.remaining, State.rem, h.length]

/-- A read at an offset past the cursor is a slice of what remains. -/
theorem memRead_remaining {s : State} (h : BufExact s) (k n : Nat) (hn : k + n ≤ s.rem) (hpos : 0 < s.rem) :
    memRead s (s.cursor + k) n = some ((s.remaining.drop k).take n) := by
  unfold State.rem at hn hpos
  rw [memRead_eq h, if_pos (by omega), State.remaining, List.drop_drop]

/-- Four bytes make a word. -/
theorem be32List_isSome : ∀ {l : List Byte}, l.length = 4 → (be32List l).isSome = true
  | [_, _, _, _], _ => rfl

/-- Four bytes make a tag. -/
theorem tagOfList_isSome : ∀ {l : List Byte}, l.length = 4 → (tagOfList l).isSome = true
  | [_, _, _, _], _ => rfl

/-- The first two slices of a chunk ahead (R99 (a), (b)). -/
theorem readHead {s : State} {len : Word} {tag : Tag} {later : List Byte} (h : BufExact s)
    (hr : s.remaining = be32Bytes len ++ tag.bytes ++ later) :
    readLength s s.cursor = some len ∧ readTag s s.cursor = some tag ∧ s.rem = 8 + later.length := by
  have hlen : s.rem = 8 + later.length := by
    rw [← remaining_length h, hr]; simp; omega
  have hl := memRead_remaining h 0 4 (by omega) (by omega)
  have ht := memRead_remaining h 4 4 (by omega) (by omega)
  have ha : (be32Bytes len ++ tag.bytes ++ later).take 4 = be32Bytes len := rfl
  have hb : ((be32Bytes len ++ tag.bytes ++ later).drop 4).take 4 = tag.bytes := rfl
  rw [Nat.add_zero, List.drop_zero, hr, ha] at hl
  rw [hr, hb] at ht
  exact ⟨by rw [readLength, hl]; exact be32List_be32Bytes len, by rw [readTag, ht]; rfl, hlen⟩

/-- The last two slices of a complete chunk ahead (R99 (c), (d)). -/
theorem readTail {s : State} {len crc : Word} {tag : Tag} {payload rest : List Byte} (h : BufExact s)
    (hp : payload.length = len.toNat)
    (hr : s.remaining = be32Bytes len ++ tag.bytes ++ (payload ++ be32Bytes crc ++ rest)) :
    readPayload s s.cursor len.toNat = some payload ∧ readStored s s.cursor len.toNat = some crc := by
  have hlen := (readHead h hr).2.2
  simp only [List.length_append, be32Bytes_length] at hlen
  have h1 := memRead_remaining h 8 len.toNat (by omega) (by omega)
  have h2 := memRead_remaining h (8 + len.toNat) 4 (by omega) (by omega)
  have hd : s.remaining.drop 8 = payload ++ (be32Bytes crc ++ rest) := by
    rw [hr, ← List.append_assoc payload]; rfl
  rw [hd, ← hp, List.take_left] at h1
  rw [← List.drop_drop, hd, ← hp, List.drop_left] at h2
  have h4 : (be32Bytes crc ++ rest).take 4 = be32Bytes crc := rfl
  rw [h4] at h2
  refine ⟨by rw [readPayload, ← hp]; exact h1, ?_⟩
  rw [readStored, ← hp, Nat.add_assoc, h2]
  exact be32List_be32Bytes crc

/-- On an exact buffer with 12 bytes left the first two slices are there. -/
theorem exists_head {s : State} (h : BufExact s) (h12 : 12 ≤ s.rem) :
    ∃ (len : Word) (tag : Tag) (later : List Byte), s.remaining = be32Bytes len ++ tag.bytes ++ later := by
  have hl := remaining_length h
  match hm : s.remaining with
  | l0 :: l1 :: l2 :: l3 :: t0 :: t1 :: t2 :: t3 :: later =>
    exact ⟨be32 l0 l1 l2 l3, ⟨t0, t1, t2, t3⟩, later, by rw [be32Bytes_be32]; rfl⟩
  | [] | [_] | [_, _] | [_, _, _] | [_, _, _, _] | [_, _, _, _, _] | [_, _, _, _, _, _] | [_, _, _, _, _, _, _] =>
    rw [hm] at hl; simp at hl; omega

/-- With enough bytes left the last two slices are there (R99 (c)). -/
theorem exists_tail {s : State} {len : Word} {tag : Tag} {later : List Byte} (h : BufExact s)
    (hr : s.remaining = be32Bytes len ++ tag.bytes ++ later) (hle : 12 + len.toNat ≤ s.rem) :
    ∃ (payload : List Byte) (crc : Word) (rest : List Byte), payload.length = len.toNat ∧ later = payload ++ be32Bytes crc ++ rest := by
  have hlen := (readHead h hr).2.2
  have hd : 4 ≤ (later.drop len.toNat).length := by simp; omega
  match hm : later.drop len.toNat, hd with
  | c0 :: c1 :: c2 :: c3 :: rest, _ =>
    refine ⟨later.take len.toNat, be32 c0 c1 c2 c3, rest, by simp; omega, ?_⟩
    rw [be32Bytes_be32, List.append_assoc]
    conv_lhs => rw [← List.take_append_drop len.toNat later, hm]
    rfl

end Sys2Proof.Machine
end

