-- ==== Sys2Proof/Laws/Machine.lean ====
section
/-!
SUPPORT. Everything an operation can do to the architectural state, said once, for every operation.
-/

namespace Sys2Proof.Machine

variable {cfg : Config}

/-- A header chunk accepted at `CURSOR`: its slices as read, and the record they make. -/
def Accepts (cfg : Config) (s : State) (r : Record) : Prop :=
  s.state = .parsing ∧ 12 + r.length.toNat ≤ s.rem ∧
    readLength s s.cursor = some r.length ∧ readTag s s.cursor = some r.typeTag ∧
    tagValid cfg.tagCharset r.typeTag = true ∧
    readPayload s s.cursor r.length.toNat = some r.payload ∧
    readStored s s.cursor r.length.toNat = some r.storedChecksum ∧
    makeChunk cfg r.typeTag r.length r.payload r.storedChecksum
      (computedChecksum cfg r.typeTag r.payload) = .ok r

/-- The architectural effects there are: none, a failure transition, an accepted signature, an accepted chunk, the end,
a reset, a load. -/
inductive Effect (cfg : Config) (s : State) : Arch → Prop where
  | nothing : Effect cfg s s.arch
  | badSignature (hs : s.state = .unparsed) : Effect cfg s (failedState .badSignature s).arch
  | chunkFails (c : Condition) (hs : s.state = .parsing) (hc : c ≠ .badSignature) : Effect cfg s (failedState c s).arch
  | begins (hs : s.state = .unparsed) (h8 : 8 ≤ s.bufLen) (hr : readSig s = some Config.sig) :
      Effect cfg s { s.arch with cursor := Config.sigLen, state := .parsing }
  | appends (r : Record) (h : Accepts cfg s r) :
      Effect cfg s { s.arch with
        chunks := s.chunks ++ [r]
        chunkCount := s.chunkCount + 1
        cursor := s.cursor + Config.chunkOverhead + r.length.toNat }
  | ends (hs : s.state = .parsing) (hr : s.rem = 0) : Effect cfg s { s.arch with state := .parsed }
  | resets : Effect cfg s State.reset.arch
  | loads (bytes : List Byte) (hs : s.state = .unparsed) :
      Effect cfg s { s.arch with buf := Memory.ofBytes bytes, bufLen := bytes.length }

theorem Effect.of_eq {s : State} {a b : Arch} (h : Effect cfg s a) (e : b = a) : Effect cfg s b := e ▸ h

/-- The condition `make_chunk` raises is one of two (R85, R87). -/
theorem makeChunk_error {tag : Tag} {length : Word} {payload : List Byte} {checksum : Word}
    {computed : Checksum} {c : Condition} (h : makeChunk cfg tag length payload checksum computed = .error c) :
    c = .malformedHeaderChunk ∨ c = .unknownChunkType := by
  unfold makeChunk at h
  split at h
  · split at h
    · cases h
    · cases h; exact .inl rfl
  · split at h
    · cases h; exact .inr rfl
    · cases h

/-- A record `make_chunk` builds has the operands as its stored fields (R84). -/
theorem makeChunk_ok {tag : Tag} {length : Word} {payload : List Byte} {checksum : Word}
    {computed : Checksum} {r : Record} (h : makeChunk cfg tag length payload checksum computed = .ok r) :
    r.typeTag = tag ∧ r.length = length ∧ r.payload = payload ∧ r.storedChecksum = checksum := by
  unfold makeChunk at h
  split at h
  · split at h
    · cases h; exact ⟨rfl, rfl, rfl, rfl⟩
    · cases h
  · split at h
    · cases h
    · cases h; exact ⟨rfl, rfl, rfl, rfl⟩

/-- A raise inside a chunk operation, as an effect. -/
theorem effect_raiseInChunk {s s1 : State} {c : Condition} (ha : s1.arch = s.arch) (hc : c ≠ .badSignature) :
    Effect cfg s (raiseInChunk c s1).arch := by
  have hst : s1.state = s.state := congrArg Arch.state ha
  by_cases hp : s.state = .parsing
  · rw [raiseInChunk_parsing c (hst.trans hp)]
    refine (Effect.chunkFails c hp hc).of_eq ?_
    simp only [State.arch, Arch.mk.injEq] at ha
    simp [State.arch, failedState, raise, ha]
  · rw [raiseInChunk_other c (by rw [hst]; exact hp)]
    exact Effect.nothing.of_eq ha

/-- A raise inside a chunk step, as an effect. -/
theorem effect_raise {s s1 : State} {c : Condition} (ha : s1.arch = s.arch) (hs : s.state = .parsing)
    (hc : c ≠ .badSignature) : Effect cfg s (raise c s1).arch := by
  rw [← raiseInChunk_parsing c ((congrArg Arch.state ha).trans hs)]
  exact effect_raiseInChunk ha hc

theorem recIhdr_effect (tag : Tag) (length : Word) (payload : List Byte) (checksum : Word) (s : State) :
    Effect cfg s (recIhdr cfg tag length payload checksum s).arch := by
  unfold recIhdr
  split
  · exact Effect.nothing.of_eq rfl
  · exact effect_raiseInChunk rfl (by decide)

theorem recDispatch_effect (tag : Tag) (length : Word) (payload : List Byte) (checksum : Word) (s : State) :
    Effect cfg s (recDispatch cfg tag length payload checksum s).arch := by
  obtain ⟨r, -, he⟩ | ⟨c, s1, hc, ha, -, -, -, -, he⟩ :=
    recDispatch_cases cfg tag length payload checksum s
  · rw [he]; exact Effect.nothing.of_eq rfl
  · rw [he]
    refine effect_raiseInChunk ha ?_
    obtain rfl | rfl := makeChunk_error hc <;> decide

theorem sigCheck_effect {s t : State} (h : sigCheck s = .next t) : Effect cfg s t.arch := by
  obtain ⟨-, rfl⟩ | ⟨hs, rfl⟩ | ⟨hs, h8, hr, rfl⟩ := sigCheck_cases h
  · exact .nothing
  · exact (Effect.badSignature hs).of_eq rfl
  · exact (Effect.begins hs h8 hr).of_eq rfl

theorem frmChunk_effect {s t : State} (h : frmChunk cfg s = .next t) : Effect cfg s t.arch := by
  obtain ⟨-, rfl⟩ | ⟨hs, -, -, rfl⟩ | ⟨hs, h12, len, tag, hl, ht, hrest⟩ := frmChunk_cases h
  · exact .nothing
  · exact effect_raise rfl hs (by decide)
  · obtain ⟨-, rfl⟩ | ⟨-, -, rfl⟩ | ⟨hv, hle, p, c, hp, hc, rfl⟩ := hrest
    · exact effect_raise rfl hs (by decide)
    · exact effect_raise rfl hs (by decide)
    · obtain ⟨r, hr, he⟩ | ⟨cd, s1, hcd, ha, -, -, -, he⟩ :=
        acceptRecord_cases cfg tag len p c (s := s.setHead len tag) hs
      · rw [he]
        obtain ⟨rfl, rfl, rfl, rfl⟩ := makeChunk_ok hr
        exact (Effect.appends r ⟨hs, hle, hl, ht, hv, hp, hc, hr⟩).of_eq rfl
      · rw [he]
        refine effect_raise (by rw [ha]; rfl) hs ?_
        obtain rfl | rfl := makeChunk_error hcd <;> decide

/-- Everything any operation can do to the architectural state when it answers a next state. -/
theorem execWith_effect (i : Instr) (s t : State) (h : execWith cfg i s = .next t) : Effect cfg s t.arch := by
  cases i with
  | frmSigchk => exact sigCheck_effect h
  | frmChunk => exact frmChunk_effect h
  | frmTerm =>
    cases h
    unfold frmTerm
    split
    · rename_i hc; exact (Effect.ends hc.1 hc.2).of_eq rfl
    · exact .nothing
  | tagInvalid tag =>
    cases h
    unfold tagInvalid
    split
    · exact Effect.nothing.of_eq rfl
    · exact effect_raiseInChunk rfl (by decide)
  | recIhdr tag length payload checksum => cases h; exact recIhdr_effect tag length payload checksum s
  | recDispatch tag length payload checksum => cases h; exact recDispatch_effect tag length payload checksum s
  | recBase tag length payload checksum => cases h; exact Effect.nothing.of_eq rfl
  | recProps tag => cases h; exact Effect.nothing.of_eq rfl
  | recCcrc tag payload => cases h; exact Effect.nothing.of_eq rfl
  | recIhdrDecode payload =>
    cases h
    unfold recIhdrDecode
    split
    · exact Effect.nothing.of_eq rfl
    · exact effect_raiseInChunk rfl (by decide)
  | crcBit r poly => cases h; exact Effect.nothing.of_eq rfl
  | crcByte r b poly => cases h; exact Effect.nothing.of_eq rfl
  | crcBlock data poly init => cases h; exact Effect.nothing.of_eq rfl
  | hostReset => cases h; exact Effect.resets.of_eq rfl
  | hostLoad bytes =>
    have h' : loadBuffer cfg bytes s = .next t := h
    unfold loadBuffer at h'
    split at h'
    · rename_i hs
      split at h'
      · cases h'; exact (Effect.loads bytes hs).of_eq rfl
      · cases h'
    · cases h'; exact .nothing
  | hostStart =>
    have h' : execHostStart s = .next t := h
    unfold execHostStart at h'
    split at h'
    · exact sigCheck_effect h'
    · cases h'; exact .nothing
  | hostRead sel =>
    cases h
    unfold readValue
    split
    · exact Effect.nothing.of_eq rfl
    · split <;> exact Effect.nothing.of_eq rfl
    · split <;> exact Effect.nothing.of_eq rfl

/-- The same of this hardware's operations. -/
theorem exec_effect (i : Instr) (s t : State) (h : exec i s = .next t) : Effect Config.current s t.arch :=
  execWith_effect i s t (exec_eq i s ▸ h)

/-- Effects depend on the architectural state alone. -/
theorem effect_of_arch {s s' : State} {a : Arch} (h : Effect cfg s a) (e : s'.arch = s.arch) : Effect cfg s' a := by
  have e1 : s'.buf = s.buf := congrArg Arch.buf e
  have e2 : s'.bufLen = s.bufLen := congrArg Arch.bufLen e
  have e3 : s'.state = s.state := congrArg Arch.state e
  have e4 : s'.cursor = s.cursor := congrArg Arch.cursor e
  have e5 : s'.chunks = s.chunks := congrArg Arch.chunks e
  have e6 : s'.chunkCount = s.chunkCount := congrArg Arch.chunkCount e
  have e7 : s'.faultCode = s.faultCode := congrArg Arch.faultCode e
  have e8 : s'.faultOffset = s.faultOffset := congrArg Arch.faultOffset e
  have hm : ∀ a n, memRead s' a n = memRead s a n := by intro a n; unfold memRead; rw [e1, e2]
  have hrem : s'.rem = s.rem := by unfold State.rem; rw [e2, e4]
  have hf : ∀ c, (failedState c s').arch = (failedState c s).arch := by intro c; simp [State.arch, failedState, e1, e2, e4]
  cases h with
  | nothing => exact Effect.nothing.of_eq e.symm
  | badSignature hs => exact (Effect.badSignature (e3.trans hs)).of_eq (hf _).symm
  | chunkFails c hs hc => exact (Effect.chunkFails c (e3.trans hs) hc).of_eq (hf _).symm
  | begins hs h8 hr => exact (Effect.begins (e3.trans hs) (by omega) (by rw [readSig, hm]; exact hr)).of_eq (by rw [e])
  | appends r ha => 
    refine (Effect.appends r ?_).of_eq (by rw [e, e4, e5, e6])
    obtain ⟨a1, a2, a3, a4, a5, a6, a7, a8⟩ := ha
    exact ⟨e3.trans a1, by omega, by rw [readLength, hm, e4]; exact a3, by rw [readTag, hm, e4]; exact a4, a5, by rw [readPayload, hm, e4]; exact a6, by rw [readStored, hm, e4]; exact a7, a8⟩
  | ends hs hr => exact (Effect.ends (e3.trans hs) (by omega)).of_eq (by rw [e])
  | resets => exact .resets
  | loads b hs => exact (Effect.loads b (e3.trans hs)).of_eq (by rw [e])

/-- Everything a step can do to the architectural state when it answers a next state. -/
theorem stepWith_effect {s t : State} (h : stepWith cfg s = .next t) : Effect cfg s t.arch := by
  obtain ⟨e, rest, -, he⟩ | ⟨s1, -, hs1, hh⟩ := stepWith_cases cfg s
  · rw [he] at h
    exact effect_of_arch (execWith_effect _ _ _ h) (by simp)
  · have hsa : s.arch = s1.arch := by rw [hs1]; simp
    obtain ⟨i, -, he⟩ | ⟨-, he⟩ := hh
    · rw [he] at h; exact effect_of_arch (execWith_effect _ _ _ h) hsa
    · rw [he] at h; cases h; exact Effect.nothing.of_eq hsa.symm

/-- The same of this hardware's steps. -/
theorem step_effect {s t : State} (h : step s = .next t) : Effect Config.current s t.arch :=
  stepWith_effect (step_eq s ▸ h)

end Sys2Proof.Machine
end

