-- ==== Sys2Proof/Laws/PerInstr.lean ====
section
/-!
SUPPORT. Per instruction: a well-formed operation's element has the length R53 says.
-/

namespace Sys2Proof.Laws.ElementLength

/-- The length in bytes of the element that selects an operation (R53); 0 where none does (R64) or at the end (R100). -/
def bytesOf : Instr → Nat
  | .frmSigchk => 8
  | .frmChunk => 0
  | .frmTerm => 0
  | .tagInvalid _ => 12
  | .recIhdr _ len _ _ => 12 + len.toNat
  | .recDispatch _ len _ _ => 12 + len.toNat
  | .recBase _ _ _ _ => 0
  | .recProps _ => 0
  | .recCcrc _ _ => 0
  | .recIhdrDecode _ => 0
  | .crcBit _ _ => 0
  | .crcByte _ _ _ => 0
  | .crcBlock _ _ _ => 0
  | .hostReset => 0
  | .hostLoad _ => 0
  | .hostStart => 0
  | .hostRead _ => 0

/-- A well-formed operation is encoded, if at all, in as many bytes as R53 says. -/
def Statement (i : Instr) : Prop :=
  i.wellFormed Config.current = true → ∀ bytes, encode i = some bytes → bytes.length = bytesOf i

theorem frmSigchk : Statement .frmSigchk := by
  intro _ bytes h; cases h; rfl

theorem frmChunk : Statement .frmChunk := by
  intro _ bytes h; cases h

theorem frmTerm : Statement .frmTerm := by
  intro _ bytes h; cases h; rfl

theorem tagInvalid (tag : Tag) : Statement (.tagInvalid tag) := by
  intro _ bytes h; cases h; exact encodeChunk_length 0 tag [] 0

theorem recIhdr (tag : Tag) (length : Word) (payload : List Byte) (checksum : Word) :
    Statement (.recIhdr tag length payload checksum) := by
  intro hw bytes h
  cases h
  simp only [Instr.wellFormed, payloadMatches, Bool.and_eq_true, beq_iff_eq] at hw
  rw [encodeChunk_length, hw.1, bytesOf]

theorem recDispatch (tag : Tag) (length : Word) (payload : List Byte) (checksum : Word) :
    Statement (.recDispatch tag length payload checksum) := by
  intro hw bytes h
  cases h
  simp only [Instr.wellFormed, payloadMatches, Bool.and_eq_true, beq_iff_eq] at hw
  rw [encodeChunk_length, hw.1, bytesOf]

theorem recBase (tag : Tag) (length : Word) (payload : List Byte) (checksum : Word) :
    Statement (.recBase tag length payload checksum) := by
  intro _ bytes h; cases h

theorem recProps (tag : Tag) : Statement (.recProps tag) := by
  intro _ bytes h; cases h

theorem recCcrc (tag : Tag) (payload : List Byte) : Statement (.recCcrc tag payload) := by
  intro _ bytes h; cases h

theorem recIhdrDecode (payload : List Byte) : Statement (.recIhdrDecode payload) := by
  intro _ bytes h; cases h

theorem crcBit (r poly : Word) : Statement (.crcBit r poly) := by
  intro _ bytes h; cases h

theorem crcByte (r : Word) (b : Byte) (poly : Word) : Statement (.crcByte r b poly) := by
  intro _ bytes h; cases h

theorem crcBlock (data : List Byte) (poly init : Word) : Statement (.crcBlock data poly init) := by
  intro _ bytes h; cases h

theorem hostReset : Statement .hostReset := by
  intro _ bytes h; cases h

theorem hostLoad (bytes : List Byte) : Statement (.hostLoad bytes) := by
  intro _ bytes' h; cases h

theorem hostStart : Statement .hostStart := by
  intro _ bytes h; cases h

theorem hostRead (sel : ReadSel) : Statement (.hostRead sel) := by
  intro _ bytes h; cases h

end Sys2Proof.Laws.ElementLength
end

