-- ==== Sys2Proof/Tests/Slice0.lean ====
section
/-!
SUPPORT. The session's own tests. Expected values are those of `spec/95_test_vectors.md` (E, V and P numbers) or are
written out from the tables of `spec/30_encoding.md`; below them the witnesses of the statements' hypotheses.
-/

namespace Sys2Proof.Tests

open Sys2Proof.Machine

/-! Helpers -/

/-- "IHDR", "ihdr", "iHdR", "tEXt", "zTXt", "IEND". -/
def tIHDR : Tag := ⟨0x49, 0x48, 0x44, 0x52⟩
def tihdr : Tag := ⟨0x69, 0x68, 0x64, 0x72⟩
def tiHdR : Tag := ⟨0x69, 0x48, 0x64, 0x52⟩
def ttEXt : Tag := ⟨0x74, 0x45, 0x58, 0x74⟩
def tzTXt : Tag := ⟨0x7A, 0x54, 0x58, 0x74⟩
def tIEND : Tag := ⟨0x49, 0x45, 0x4E, 0x44⟩

/-- A tag with a byte that is no ASCII code (V15). -/
def tBad : Tag := ⟨0x80, 0x41, 0x42, 0x43⟩

/-- The header payload of E5. -/
def payE5 : List Byte := [0x00, 0x00, 0x00, 0x10, 0x00, 0x00, 0x00, 0x20, 0x08, 0x02, 0x00, 0x00, 0x00]

/-- The 14-byte header payload of V13 and P4. -/
def payP4 : List Byte := [0x00, 0x00, 0x00, 0x01, 0x00, 0x00, 0x00, 0x02, 0x10, 0x03, 0x01, 0x00, 0x01, 0xAA]

/-- The header chunk of P2. -/
def chunkP2 : List Byte :=
  [0x00, 0x00, 0x00, 0x0D, 0x49, 0x48, 0x44, 0x52, 0x00, 0x00, 0x00, 0x10, 0x00, 0x00, 0x00, 0x20,
   0x08, 0x02, 0x00, 0x00, 0x00, 0x94, 0xEB, 0x6F, 0x9B]

/-- The signature's bytes, in decimal as the source gives them (R46). -/
def sigBytes : List Byte := [137, 80, 78, 71, 13, 10, 26, 10]

/-- A loaded buffer before the start. -/
def loaded (bytes : List Byte) : State := State.reset.loadBytes bytes

/-- A parse at offset 8 of the signature followed by these bytes. -/
def parsing (bytes : List Byte) : State :=
  { loaded (sigBytes ++ bytes) with cursor := 8, state := .parsing }

/-- A failed parse. -/
def failedOne : State := raise .unknownChunkType (parsing chunkP2)

/-- A parsed state. -/
def parsedOne : State := { parsing [] with state := .parsed }

/-- What a next state is looked at by: state, cursor, count, code, offset. -/
structure Seen where
  state  : FramerState
  cursor : Nat
  count  : Nat
  code   : Option Condition
  offset : Nat
  deriving DecidableEq

/-- The registers of the next state an outcome answers. -/
def seen (o : Host.Outcome State Fault Refusal) : Option Seen :=
  (nextState o).map fun t => ⟨t.state, t.cursor, t.chunkCount, t.faultCode, t.faultOffset⟩

/-- The end of a chunk step: state and code (V15). -/
def outcome15 (cfg : Config) (bytes : List Byte) : Option (FramerState × Option Condition × Nat) :=
  (nextState (frmChunk cfg (parsing bytes))).map fun t => (t.state, t.faultCode, t.faultOffset)

/-! Well-formedness: a term each check refuses -/

theorem test_wf_payload_of_ihdr : (Instr.recIhdr tIHDR 12 payE5 0).wellFormed Config.current = false := by decide
theorem test_wf_class_of_ihdr : (Instr.recIhdr tzTXt 13 payE5 0).wellFormed Config.current = false := by decide
theorem test_wf_payload_of_dispatch : (Instr.recDispatch tzTXt 1 [] 0).wellFormed Config.current = false := by decide
theorem test_wf_class_of_dispatch : (Instr.recDispatch tIHDR 0 [] 0).wellFormed Config.current = false := by decide
theorem test_wf_payload_of_base : (Instr.recBase tIEND 1 [] 0).wellFormed Config.current = false := by decide
theorem test_wf_class_of_invalid : (Instr.tagInvalid tIHDR).wellFormed Config.current = false := by decide
theorem test_wf_load_too_long :
    (Instr.hostLoad [0, 0]).wellFormed { Config.current with aw := some 1 } = false := by decide
theorem test_wf_accepts : (Instr.recIhdr tIHDR 13 payE5 0x94EB6F9B).wellFormed Config.current = true := by decide

/-! Decoding words written out from R46, R47, R52, R57 -/

/-- R46: the eight bytes, and one bit of the last changed. -/
theorem test_decode_sig : decode Config.current .unparsed (sigBytes ++ [1]) = .op .frmSigchk [1] := by decide
theorem test_decode_bad_sig :
    decode Config.current .unparsed [137, 80, 78, 71, 13, 10, 26, 11] = .reject .badSignature := by decide

/-- R47: length 13, tag, payload, checksum of P2, with one byte after. -/
theorem test_decode_ihdr_chunk :
    decode Config.current .parsing (chunkP2 ++ [0x77]) = .op (.recIhdr tIHDR 13 payE5 0x94EB6F9B) [0x77] := by
  decide +kernel

/-- R57: "zTXt" is unknown, a byte of 0x80 or more is invalid. -/
theorem test_decode_unknown_chunk :
    decode Config.current .parsing [0, 0, 0, 0, 0x7A, 0x54, 0x58, 0x74, 0x6B, 0x79, 0x7B, 0xF1] =
      .op (.recDispatch tzTXt 0 [] 0x6B797BF1) [] := by decide +kernel
theorem test_decode_invalid_tag :
    decode Config.current .parsing [0, 0, 0, 0xFF, 0x80, 0x41, 0x42, 0x43, 0, 0, 0, 0] = .op (.tagInvalid tBad) [] := by
  decide +kernel

/-- R53: the element of an invalid tag has the length its length field says; the byte after it is left. -/
theorem test_decode_invalid_tag_length :
    decode Config.current .parsing [0, 0, 0, 1, 0x80, 0x41, 0x42, 0x43, 0xAA, 0, 0, 0, 0, 0x77] =
      .op (.tagInvalid tBad) [0x77] := by decide +kernel

/-- R59 (f): eleven bytes are no element; a payload cut short is none. -/
theorem test_decode_short :
    decode Config.current .parsing [0, 0, 0, 0, 0x7A, 0x54, 0x58, 0x74, 0x6B, 0x79, 0x7B] =
      .reject .truncatedChunk := by decide
theorem test_decode_cut :
    decode Config.current .parsing [0, 0, 0, 0xFF, 0x7A, 0x54, 0x58, 0x74, 0, 0, 0, 0] =
      .reject .truncatedChunk := by decide +kernel

/-- R100: the end of the buffer. -/
theorem test_decode_end : decode Config.current .parsing [] = .op .frmTerm [] := by decide

/-- R52, E5: the seven fields. -/
theorem test_decode_ihdr_payload : ihdrFields payE5 = some ⟨16, 32, 8, 2, 0, 0, 0⟩ := by decide

/-- R47: the encoder's bytes of P2's chunk. -/
theorem test_encode_chunk : encode (.recIhdr tIHDR 13 payE5 0x94EB6F9B) = some chunkP2 := by decide

/-- Table words (R46, R57): the row's match, and a 96-bit CHUNK element. -/
theorem test_word_sig : decodeTableWord 64 0x89504E470D0A1A0A = some .frmSigchk := by decide +kernel
theorem test_word_ihdr : decodeTableWord 32 0x49484452 = some (.recIhdr tIHDR 0 [] 0) := by decide +kernel
theorem test_word_dispatch :
    decodeTableWord 32 0 = some (.recDispatch ⟨0, 0, 0, 0⟩ 0 [] 0) := by decide +kernel
theorem test_word_invalid : decodeTableWord 32 0x80414243 = some (.tagInvalid tBad) := by decide +kernel
theorem test_word_chunk : decodeTableWord 96 0x000000007A5458746B797BF1 = some .frmChunk := by decide +kernel
/-- R64: a whole CHUNK is a word of FRM.CHUNK whatever its tag; one cut short is none. -/
theorem test_word_chunk_invalid_tag :
    decodeTableWord 104 0x0000000180414243AA00000000 = some .frmChunk ∧
    decodeTableWord 96 0x000000018041424300000000 = none ∧
    decodeTableWord 104 0x000000007A5458746B797BF100 = none := by decide +kernel

/-- The placed word is what the next step runs. -/
theorem test_fetch_ihdr :
    step (State.reset.withFetchWord 32 0x49484452) =
      exec (.recIhdr tIHDR 0 [] 0) (State.reset.withFetchWord 32 0x49484452) := by
  have h : nextState (step (State.reset.withFetchWord 32 0x49484452)) =
      nextState (exec (.recIhdr tIHDR 0 [] 0) (State.reset.withFetchWord 32 0x49484452)) := by decide +kernel
  generalize step (State.reset.withFetchWord 32 0x49484452) = o at h ⊢
  cases o with
  | next t => injection h with h; rw [h]; rfl
  | fault f => cases h
  | refused r => cases h
theorem test_fetch_sig :
    seen (step (State.reset.withFetchWord 64 0x89504E470D0A1A0A)) = some ⟨.parsing, 8, 0, none, 0⟩ := by decide +kernel

/-! Fields and keys (V7, V8) -/

theorem test_be32 : [be32 0 0 0 0x0D, be32 0x12 0x34 0x56 0x78, be32 0xFF 0xFF 0xFF 0xFF, be32 0x80 0 0 0].map
    BitVec.toNat = [13, 0x12345678, 4294967295, 2147483648] := by decide
theorem test_upper : [0x69, 0x7A, 0x61, 0x49, 0x60, 0x7B, 0x31, 0x00, 0x7F].map upper =
    [0x49, 0x5A, 0x41, 0x49, 0x60, 0x7B, 0x31, 0x00, 0x7F] := by decide
theorem test_keys : tihdr.key = tIHDR ∧ tiHdR.key = tIHDR ∧ tzTXt.key ≠ tIHDR ∧ tIEND.key = tIEND := by decide

/-! The engine (V1 to V6) -/

theorem test_crc_bit : [0, 1, 2, 0x80000000, 0xFFFFFFFE, 0xFFFFFFFF, 0xEDB88320].map (fun r => crcBit r 0xEDB88320) =
    [0, 0xEDB88320, 1, 0x40000000, 0x7FFFFFFF, 0x92477CDF, 0x76DC4190] := by decide
theorem test_exec_crc_bit :
    (nextState (exec (.crcBit 0xFFFFFFFF 0xEDB88320) State.reset)).map State.crcReg = some 0x92477CDF := by decide
theorem test_crc_byte : crcByte 0xFFFFFFFF 0x49 0xEDB88320 = 0x22FDE946 ∧ crcByte 0x12345678 0x9A 0xEDB88320 = 0x4E16B702 ∧
    crcByte 0 0xFF 0xEDB88320 = 0x2D02EF8D := by decide +kernel
theorem test_exec_crc_byte :
    (nextState (exec (.crcByte 0xFFFFFFFF 0xFF 0xEDB88320) State.reset)).map State.crcReg = some 0x00FFFFFF := by
  decide +kernel
theorem test_crc_block : crcBlock (tIHDR.bytes ++ payE5) 0xEDB88320 0xFFFFFFFF = 0x6B149064 ∧
    crcBlock payE5 0xEDB88320 0x575E51F5 = 0x6B149064 := by decide +kernel
/-- V4: another polynomial, and a zero start. -/
theorem test_exec_crc_block :
    (nextState (exec (.crcBlock [0x31, 0x32, 0x33, 0x34, 0x35, 0x36, 0x37, 0x38, 0x39] 0x82F63B78 0xFFFFFFFF)
      State.reset)).map State.crcReg = some 0x1CF96D7C ∧
    crcBlock [0x61, 0x62, 0x63] 0xEDB88320 0 = 0xCA6598D0 := by decide +kernel
theorem test_table : crcTable 0xEDB88320 0xB6 = 0x220216B9 ∧
    crcByteByTable 0xFFFFFFFF 0x49 0xEDB88320 = 0x22FDE946 := by decide +kernel

/-! Records (V9 to V13) -/

/-- V9, and E4 as corrected by C1. -/
theorem test_props : propsOf tiHdR = ⟨true, false, true, false⟩ ∧ propsOf ttEXt = ⟨true, false, false, true⟩ := by decide
theorem test_exec_props :
    (nextState (exec (.recProps ⟨0x31, 0x00, 0x5F, 0x20⟩) State.reset)).map State.result =
      some (some (.props ⟨true, false, false, true⟩)) := by decide
theorem test_ccrc : (nextState (exec (.recCcrc tiHdR []) State.reset)).map State.ccrc = some (.wide 0xFF9D172596) := by
  decide +kernel
theorem test_ccrc_32 :
    (nextState (execWith { Config.current with finalMask := .ones32 } (.recCcrc ttEXt []) State.reset)).map State.ccrc =
      some (.narrow 0x9642C585) := by decide +kernel
/-- R84's example. -/
theorem test_base : (nextState (exec (.recBase tIEND 0 [] 0xAE426082) State.reset)).map State.result =
    some (some (.record ⟨tIEND, ⟨false, false, false, false⟩, 0, [], 0xAE426082, .wide 0xFFAE426082, true, .base⟩)) := by
  decide +kernel
/-- V9's last column: under the 32-bit mask the canonical value matches. -/
theorem test_base_match :
    crcMismatch 0xAE426082 (computedChecksum { Config.current with finalMask := .ones32 } tIEND []) = false := by
  decide +kernel
/-- V12. -/
theorem test_ihdr : (nextState (exec (.recIhdr tIHDR 13 payE5 0x94EB6F9B) State.reset)).map State.result =
    some (some (.record ⟨tIHDR, ⟨false, false, false, false⟩, 13, payE5, 0x94EB6F9B, .wide 0xFF94EB6F9B, true,
      .header ⟨16, 32, 8, 2, 0, 0, 0⟩⟩)) := by decide +kernel
/-- P9: five bytes. -/
theorem test_ihdr_short :
    seen (exec (.recIhdr tIHDR 5 [0, 0, 0, 0x10, 0] 0xD580926D) (parsing [0])) =
      some ⟨.failed, 8, 0, some .malformedHeaderChunk, 8⟩ := by decide +kernel
/-- V13. -/
theorem test_ihdr_decode : (nextState (exec (.recIhdrDecode payP4) State.reset)).map State.result =
    some (some (.header ⟨1, 2, 16, 3, 1, 0, 1⟩)) := by decide
theorem test_ihdr_decode_strict : decodeIhdr { Config.current with ihdrStrictLen := true } payP4 = none ∧
    decodeIhdr Config.current (payE5.take 12) = none ∧
    decodeIhdr { Config.current with ihdrStrictLen := true } payE5 ≠ none := by decide
/-- V11. -/
theorem test_dispatch_case : exec (.recDispatch tiHdR 13 payE5 0) State.reset =
    exec (.recIhdr tiHdR 13 payE5 0) State.reset := rfl
theorem test_dispatch_unknown : seen (exec (.recDispatch tzTXt 0 [] 0x6B797BF1) (parsing [0])) =
    some ⟨.failed, 8, 0, some .unknownChunkType, 8⟩ := by decide
theorem test_tag_invalid : seen (exec (.tagInvalid ⟨0x49, 0x48, 0xC4, 0x52⟩) (parsing [0])) =
    some ⟨.failed, 8, 0, some .invalidTypeTag, 8⟩ := by decide
theorem test_tag_not_invalid : seen (exec (.tagInvalid ⟨0x49, 0x48, 0x31, 0x52⟩) (parsing [0])) =
    some ⟨.parsing, 8, 0, none, 0⟩ := by decide

/-! The framer (V14, V15, P1 to P9) -/

theorem test_sigchk :
    [seen (exec .frmSigchk (loaded sigBytes)), seen (exec .frmSigchk (loaded (sigBytes.take 7)))] =
      [some ⟨.parsing, 8, 0, none, 0⟩, some ⟨.failed, 0, 0, some .badSignature, 0⟩] := by decide +kernel
theorem test_sigchk_swapped : seen (exec .frmSigchk (loaded [0x89, 0x50, 0x4E, 0x47, 0x0A, 0x0D, 0x1A, 0x0A])) =
    some ⟨.failed, 0, 0, some .badSignature, 0⟩ := by decide +kernel

/-- V15, row by row. -/
theorem test_chunk_order :
    [[0x00], [0, 0, 0, 0, 0x7A, 0x54, 0x58, 0x74, 0x6B, 0x79, 0x7B], [0, 0, 0, 0, 0x80, 0x41, 0x42, 0x43, 0],
     [0, 0, 0, 0xFF, 0x80, 0x41, 0x42, 0x43, 0, 0, 0, 0], [0, 0, 0, 0xFF, 0x7A, 0x54, 0x58, 0x74, 0, 0, 0, 0],
     [0, 0, 0, 0, 0x7A, 0x54, 0x58, 0x74, 0x6B, 0x79, 0x7B, 0xF1],
     [0, 0, 0, 5, 0x49, 0x48, 0x44, 0x52, 0, 0, 0, 0x10, 0, 0xD5, 0x80, 0x92, 0x6D],
     [0xFF, 0xFF, 0xFF, 0xFF, 0x49, 0x48, 0x44, 0x52] ++ payE5 ++ [0, 0, 0, 0],
     [0, 0, 0, 0x0D, 0x49, 0x48, 0xC4, 0x52] ++ payE5 ++ [0xDA, 0x6C, 0x9F, 0x20],
     [0, 0, 0, 0x0D, 0x49, 0x48, 0x31, 0x52] ++ payE5 ++ [0xA1, 0x30, 0x0B, 0xBC]].map (outcome15 Config.current) =
    [some (.failed, some .truncatedChunk, 8), some (.failed, some .truncatedChunk, 8),
     some (.failed, some .truncatedChunk, 8), some (.failed, some .invalidTypeTag, 8),
     some (.failed, some .truncatedChunk, 8), some (.failed, some .unknownChunkType, 8),
     some (.failed, some .malformedHeaderChunk, 8), some (.failed, some .truncatedChunk, 8),
     some (.failed, some .invalidTypeTag, 8), some (.failed, some .unknownChunkType, 8)] := by decide +kernel

/-- P2's chunk step; P4's record; the alternatives of V15's last row, P4 and P8. -/
theorem test_chunk_appends : seen (exec .frmChunk (parsing chunkP2)) = some ⟨.parsing, 33, 1, none, 0⟩ := by
  decide +kernel
theorem test_chunk_alternatives :
    outcome15 { Config.current with tagCharset := .letters }
      ([0, 0, 0, 0x0D, 0x49, 0x48, 0x31, 0x52] ++ payE5 ++ [0xA1, 0x30, 0x0B, 0xBC]) =
      some (.failed, some .invalidTypeTag, 8) ∧
    outcome15 { Config.current with ihdrStrictLen := true }
      ([0, 0, 0, 0x0E, 0x69, 0x68, 0x64, 0x72] ++ payP4 ++ [0, 0, 0, 0]) =
      some (.failed, some .malformedHeaderChunk, 8) ∧
    (nextState (frmChunk { Config.current with unknownPolicy := .base }
      (parsing [0, 0, 0, 0, 0x7A, 0x54, 0x58, 0x74, 0x6B, 0x79, 0x7B, 0xF1]))).map State.chunks =
      some [⟨tzTXt, ⟨true, false, false, true⟩, 0, [], 0x6B797BF1, .wide 0xFF6B797BF1, true, .base⟩] := by decide +kernel
/-- P4. -/
theorem test_chunk_p4 :
    (nextState (exec .frmChunk (parsing ([0, 0, 0, 0x0E, 0x69, 0x68, 0x64, 0x72] ++ payP4 ++ [0, 0, 0, 0])))).map
      State.chunks =
      some [⟨tihdr, ⟨true, true, true, true⟩, 14, payP4, 0, .wide 0xFF2B4F072D, true, .header ⟨1, 2, 16, 3, 1, 0, 1⟩⟩] := by
  decide +kernel
/-- U8: a finite capacity that is reached is refused. -/
theorem test_chunk_full :
    nextState (frmChunk { Config.current with maxChunks := some 0 } (parsing chunkP2)) = none := by decide +kernel
theorem test_term : seen (exec .frmTerm (parsing [])) = some ⟨.parsed, 8, 0, none, 0⟩ := by decide
theorem test_term_not_enabled : seen (exec .frmTerm (parsing [0])) = some ⟨.parsing, 8, 0, none, 0⟩ := by decide

/-- R105: the byte-serial step ends where the chunk step ends, on P2's chunk, an unknown tag and an invalid one. -/
theorem test_serial :
    [chunkP2, [0, 0, 0, 0, 0x7A, 0x54, 0x58, 0x74, 0x6B, 0x79, 0x7B, 0xF1],
      [0, 0, 0, 0xFF, 0x80, 0x41, 0x42, 0x43, 0, 0, 0, 0], [0]].map
        (fun b => (serialChunk Config.current (parsing b) b.length).map (fun o => (nextState o).map State.arch)) =
      [chunkP2, [0, 0, 0, 0, 0x7A, 0x54, 0x58, 0x74, 0x6B, 0x79, 0x7B, 0xF1],
        [0, 0, 0, 0xFF, 0x80, 0x41, 0x42, 0x43, 0, 0, 0, 0], [0]].map
        (fun b => some ((nextState (exec .frmChunk (parsing b))).map State.arch)) := by decide +kernel

/-- R62, R63: P2 in the notation. -/
theorem test_assemble :
    assemble [.sigLine, .chunkLine tIHDR (some 13) payE5 .std, .endLine] = sigBytes ++ chunkP2 := by decide +kernel

/-! The host -/

theorem test_reset : (nextState (exec .hostReset failedOne)).map State.arch = some State.reset.arch := by decide
theorem test_load : (nextState (exec (.hostLoad [7, 8]) State.reset)).map (fun t => (t.bufLen, t.buf.read 1)) =
    some (2, some 8) := by decide
theorem test_load_ignored : seen (exec (.hostLoad [7]) parsedOne) = some ⟨.parsed, 8, 0, none, 0⟩ := by decide
/-- R144: a start with nothing loaded. -/
theorem test_start_empty : seen (exec .hostStart State.reset) = some ⟨.failed, 0, 0, some .badSignature, 0⟩ := by decide
theorem test_start_ignored : seen (exec .hostStart parsedOne) = some ⟨.parsed, 8, 0, none, 0⟩ := by decide
theorem test_read : (nextState (exec (.hostRead (.reg .faultCode)) failedOne)).map State.readData =
    some (some (.fault (some .unknownChunkType))) := by decide
theorem test_read_byte : (nextState (exec (.hostRead (.bufByte 1)) (loaded sigBytes))).map State.readData =
    some (some (.byte 80)) := by decide
/-- One step performs the host's event; with the slot empty, the framer's operation. -/
theorem test_step_host :
    [some .reset, none].map (fun slot => seen (step ((parsing chunkP2).setHost [slot]))) =
      [some ⟨.unparsed, 0, 0, none, 0⟩, some ⟨.parsing, 33, 1, none, 0⟩] := by decide +kernel

/-! Witnesses: for each statement with hypotheses, states and operands that meet all of them together -/

/-- The states the witnesses use, over P2's chunk, an unknown tag, an invalid tag, and truncated bytes. -/
def unknownBytes : List Byte := [0, 0, 0, 0, 0x7A, 0x54, 0x58, 0x74, 0x6B, 0x79, 0x7B, 0xF1]
def invalidBytes : List Byte := [0, 0, 0, 0xFF, 0x80, 0x41, 0x42, 0x43, 0, 0, 0, 0]
def cutBytes : List Byte := [0, 0, 0, 0xFF, 0x7A, 0x54, 0x58, 0x74, 0, 0, 0, 0]
def shortBytes : List Byte := [0, 0, 0, 12, 0x49, 0x48, 0x44, 0x52] ++ payE5.take 12 ++ [0, 0, 0, 0]

theorem witness_UpperChangesLowerCaseOnly :
    (0x61 ≤ (0x61 : Byte).toNat ∧ (0x61 : Byte).toNat ≤ 0x7A) ∧ (0x61 ≤ (0x7A : Byte).toNat ∧ (0x7A : Byte).toNat ≤ 0x7A) ∧
    ¬ (0x61 ≤ (0x60 : Byte).toNat ∧ (0x60 : Byte).toNat ≤ 0x7A) ∧
    ¬ (0x61 ≤ (0x7B : Byte).toNat ∧ (0x7B : Byte).toNat ≤ 0x7A) := by decide

theorem witness_DecodeOfEncode :
    (Instr.recIhdr tIHDR 13 payE5 0x94EB6F9B).wellFormed Config.current = true ∧
    encode (.recIhdr tIHDR 13 payE5 0x94EB6F9B) = some chunkP2 ∧
    (Instr.recIhdr tIHDR 13 payE5 0x94EB6F9B = .frmTerm → [0x77] = ([] : List Byte)) := by decide
theorem witness_DecodeOfEncode_others :
    (Instr.frmTerm.wellFormed Config.current = true ∧ encode .frmTerm = some []) ∧
    ((Instr.tagInvalid tBad).wellFormed Config.current = true ∧ (encode (.tagInvalid tBad)).isSome = true) ∧
    ((Instr.recDispatch tzTXt 0 [] 1).wellFormed Config.current = true ∧
      (encode (.recDispatch tzTXt 0 [] 1)).isSome = true) := by decide

theorem witness_EncodeOfDecode :
    decode Config.current .parsing (chunkP2 ++ [0x77]) = .op (.recIhdr tIHDR 13 payE5 0x94EB6F9B) [0x77] :=
  test_decode_ihdr_chunk

theorem witness_CrcBitShiftsAndXors :
    (1 : Word).getLsbD 0 = true ∧ (2 : Word).getLsbD 0 = false ∧ (0xEDB88320 : Word).getLsbD 31 = true ∧ 0 < 31 := by
  decide

theorem witness_CrcByteAbsorbsOneByte : (0xEDB88320 : Word).getLsbD 31 = true := by decide

theorem witness_OneByteChangesTheChecksum : (0x00 : Byte) ≠ 0x80 := by decide

theorem witness_DifferentTagsDifferInChecksum : tIHDR ≠ tihdr := by decide

theorem witness_ComputedChecksumIsMasked : ({ Config.current with finalMask := .ones32 } : Config).finalMask = .ones32 := rfl

theorem witness_HeaderRecordIsBuilt : 13 ≤ payE5.length := by decide

theorem witness_ShortHeaderIsMalformed : (payE5.take 12).length < 13 ∧ (parsing chunkP2).state = .parsing := by decide

theorem witness_HeaderPayloadDecodes :
    13 ≤ payE5.length ∧ (payE5.take 12).length < 13 ∧ (parsing chunkP2).state = .parsing := by decide

theorem witness_DispatchByUpperCasedTag :
    (tiHdR.key = Config.keyIhdr ∧ 13 ≤ payE5.length ∧ (payE5.take 12).length < 13) ∧
    (tzTXt.key ≠ Config.keyIhdr ∧ (parsing chunkP2).state = .parsing) := by decide

theorem witness_InvalidTagRaises : (∃ b ∈ tBad.bytes, 0x80 ≤ b.toNat) ∧ (parsing invalidBytes).state = .parsing := by
  decide

theorem witness_RecordOpsRaiseInParsingOnly :
    (∃ tag, Instr.tagInvalid tBad = .tagInvalid tag) ∧ State.reset.state ≠ .parsing ∧
    exec (.tagInvalid tBad) State.reset = .next (tagInvalid Config.current tBad State.reset) :=
  ⟨⟨_, rfl⟩, by decide, rfl⟩

theorem witness_SwitchesSelectTheAlternatives :
    (({ Config.current with unknownPolicy := .base } : Config).unknownPolicy = .base ∧
      lookupCtor ({ Config.current with unknownPolicy := .base } : Config).registry tzTXt.key = none) ∧
    ((nextState (stepWith { Config.current with unknownPolicy := .base } failedOne)).map State.faultCode =
      some (some .unknownChunkType) ∧ failedOne.faultCode = some .unknownChunkType) ∧
    ({ Config.current with ihdrStrictLen := true } : Config).ihdrStrictLen = true := by decide

theorem witness_SignatureDecidesTheParse :
    ((loaded sigBytes).state = .unparsed ∧ BufExact (loaded sigBytes) ∧
      (loaded sigBytes).buf.bytes.take 8 = [137, 80, 78, 71, 13, 10, 26, 10]) ∧
    ((loaded (sigBytes.take 7)).state = .unparsed ∧ BufExact (loaded (sigBytes.take 7)) ∧
      (loaded (sigBytes.take 7)).buf.bytes.take 8 ≠ [137, 80, 78, 71, 13, 10, 26, 10] ∧
      Machine.Inv (loaded (sigBytes.take 7))) := by decide

theorem witness_ChunkStepAppendsTheRecord :
    (parsing (chunkP2 ++ [0])).state = .parsing ∧ BufExact (parsing (chunkP2 ++ [0])) ∧
    ChunkAhead (parsing (chunkP2 ++ [0])) tIHDR 13 payE5 0x94EB6F9B ∧ tIHDR.key = Config.keyIhdr ∧ 13 ≤ payE5.length :=
  ⟨rfl, by decide, ⟨by decide, [0], by decide⟩, by decide, by decide⟩

/-- The same chunk with another stored checksum. -/
theorem witness_StoredChecksumDecidesNothing :
    (parsing chunkP2).state = .parsing ∧ (parsing (chunkP2.take 21 ++ [0, 0, 0, 0])).state = .parsing ∧
    BufExact (parsing chunkP2) ∧ BufExact (parsing (chunkP2.take 21 ++ [0, 0, 0, 0])) ∧
    ChunkAhead (parsing chunkP2) tIHDR 13 payE5 0x94EB6F9B ∧
    ChunkAhead (parsing (chunkP2.take 21 ++ [0, 0, 0, 0])) tIHDR 13 payE5 0 ∧
    (parsing chunkP2).cursor = (parsing (chunkP2.take 21 ++ [0, 0, 0, 0])).cursor ∧
    (parsing chunkP2).faultCode = (parsing (chunkP2.take 21 ++ [0, 0, 0, 0])).faultCode :=
  ⟨rfl, rfl, by decide, by decide, ⟨by decide, [], by decide⟩, ⟨by decide, [], by decide⟩, rfl, rfl⟩

theorem witness_ChunkConditionsInOrder_short :
    (parsing [0]).state = .parsing ∧ BufExact (parsing [0]) ∧ 0 < (parsing [0]).rem ∧ (parsing [0]).rem < 12 ∧
    (parsing (unknownBytes.take 11)).rem = 11 ∧ (parsing unknownBytes).rem = 12 := by decide
/-- One state for each branch: invalid tag, truncated, unknown, malformed, appended. -/
theorem witness_ChunkConditionsInOrder_branches :
    (∀ b ∈ [invalidBytes, cutBytes, unknownBytes, shortBytes, chunkP2],
      (parsing b).state = .parsing ∧ BufExact (parsing b) ∧ 0 < (parsing b).rem ∧ 12 ≤ (parsing b).rem) ∧
    ((parsing invalidBytes).remaining = be32Bytes 0xFF ++ tBad.bytes ++ [0, 0, 0, 0] ∧ ∃ b ∈ tBad.bytes, 0x80 ≤ b.toNat) ∧
    ((parsing cutBytes).remaining = be32Bytes 0xFF ++ tzTXt.bytes ++ [0, 0, 0, 0] ∧
      (parsing cutBytes).rem < 12 + (0xFF : Word).toNat) ∧
    ((parsing unknownBytes).remaining = be32Bytes 0 ++ tzTXt.bytes ++ [0x6B, 0x79, 0x7B, 0xF1] ∧
      tzTXt.key ≠ Config.keyIhdr) ∧
    ((parsing shortBytes).remaining = be32Bytes 12 ++ tIHDR.bytes ++ (payE5.take 12 ++ [0, 0, 0, 0]) ∧
      tIHDR.key = Config.keyIhdr ∧ (parsing shortBytes).rem = 12 + (12 : Word).toNat) ∧
    (parsing chunkP2).remaining = be32Bytes 13 ++ tIHDR.bytes ++ (payE5 ++ [0x94, 0xEB, 0x6F, 0x9B]) := by decide

theorem witness_ChunkStepProgress :
    (parsing chunkP2).state = .parsing ∧ 0 < (parsing chunkP2).rem ∧
    (nextState (exec .frmChunk (parsing chunkP2))).map State.state = some .parsing := by decide +kernel

theorem witness_TerminationEndsTheParse :
    ((parsing []).state = .parsing ∧ (parsing []).rem = 0 ∧ Inv (parsing [])) ∧
    ((loaded sigBytes).state = .unparsed ∧ (loaded sigBytes).buf = Memory.ofBytes Config.sig ∧
      (loaded sigBytes).bufLen = 8 ∧ (loaded sigBytes).host = []) := by decide

theorem witness_FailureTransitionIsOne :
    exec (.tagInvalid tBad) (parsing [0]) = .next (tagInvalid Config.current tBad (parsing [0])) ∧
    (parsing [0]).state ≠ .failed ∧ (tagInvalid Config.current tBad (parsing [0])).state = .failed :=
  ⟨rfl, by decide, by decide⟩

/-- One change of state for each line of the table, and a reset. -/
theorem witness_OnlyTheTablesTransitions :
    (nextState (exec .hostReset parsedOne)).map State.state = some .unparsed ∧
    (nextState (exec .frmSigchk (loaded sigBytes))).map State.state = some .parsing ∧
    (nextState (exec .hostStart State.reset)).map State.state = some .failed ∧
    [Instr.frmChunk, .tagInvalid tBad, .recDispatch tzTXt 0 [] 0, .recDispatch tIHDR 0 [] 0, .recIhdr tIHDR 0 [] 0,
      .recIhdrDecode []].map (fun i => (nextState (exec i (parsing [0]))).map State.state) =
      List.replicate 6 (some .failed) ∧
    (nextState (exec .frmTerm (parsing []))).map State.state = some .parsed := by decide +kernel

theorem witness_OnlyResetLeavesATerminalState :
    parsedOne.state = .parsed ∧ failedOne.state = .failed ∧ exec .hostStart parsedOne = .next parsedOne ∧
    Instr.hostStart ≠ .hostReset := ⟨rfl, rfl, rfl, by decide⟩

theorem witness_OnlyLoadAndResetWriteTheBuffer : exec .frmTerm (parsing []) = .next (frmTerm (parsing [])) := rfl

theorem witness_WorkingRegistersAreDead :
    (parsing chunkP2).arch = ((parsing chunkP2).setHead 7 tzTXt).arch ∧
    (parsing chunkP2).host = ((parsing chunkP2).setHead 7 tzTXt).host ∧
    parsing chunkP2 ≠ (parsing chunkP2).setHead 7 tzTXt := by decide

theorem witness_ResetRestoresTheResetState :
    failedOne.state = .failed ∧ (nextState (exec .hostReset failedOne)).map State.state = some .unparsed := by decide

theorem witness_LoadFillsTheBuffer : State.reset.state = .unparsed := rfl

theorem witness_LateStartAndLoadAreIgnored : (parsing []).state ≠ .unparsed ∧ parsedOne.state ≠ .unparsed := by decide

theorem witness_ReadGivesTheValue :
    0 < (appendAdvance default (parsing chunkP2)).chunks.length ∧ BufExact (parsing chunkP2) ∧
    32 < (parsing chunkP2).buf.bytes.length := by decide

theorem witness_StepPerformsTheEnabledOperation :
    ((parsing [0]).setHost [some .start, none]).host = some .start :: [none] ∧
    ((parsing [0]).setHost [none]).host = none :: [] ∧
    ((parsing [0]).host = [] ∧ (parsing [0]).state = .parsing ∧ 0 < (parsing [0]).rem) ∧
    ((parsing []).host = [] ∧ (parsing []).state = .parsing ∧ (parsing []).rem = 0) ∧
    (parsedOne.host = [] ∧ parsedOne.state ≠ .parsing) := by decide

theorem witness_StepRunsTheDecodedElement_end :
    (parsing []).host = [] ∧ (parsing []).state = .parsing ∧ BufExact (parsing []) ∧
    decode Config.current .parsing (parsing []).remaining = .op .frmTerm [] := by decide
theorem witness_StepRunsTheDecodedElement :
    (parsing chunkP2).host = [] ∧ (parsing chunkP2).state = .parsing ∧ BufExact (parsing chunkP2) ∧
    decode Config.current .parsing (parsing chunkP2).remaining = .op (.recIhdr tIHDR 13 payE5 0x94EB6F9B) [] ∧
    Instr.recIhdr tIHDR 13 payE5 0x94EB6F9B ≠ .frmTerm ∧
    (parsing chunkP2).remaining = be32Bytes 13 ++ chunkP2.drop 4 := by decide +kernel

theorem witness_RejectedElementIsTruncated :
    (parsing cutBytes).host = [] ∧ (parsing cutBytes).state = .parsing ∧ BufExact (parsing cutBytes) ∧
    decode Config.current .parsing (parsing cutBytes).remaining = .reject .truncatedChunk := by decide +kernel

theorem witness_Inv : Inv State.reset ∧ Inv (loaded sigBytes) ∧ Inv (parsing chunkP2) ∧ Inv parsedOne ∧ Inv failedOne :=
  ⟨by decide, by decide, by decide, by decide, by decide⟩

/-- The hypotheses of `StepKeepsTheInvariant` (and of `NoStepStopsTheMachine`). -/
theorem witness_StepKeepsTheInvariant :
    Inv (parsing []) ∧ step (parsing []) = .next (frmTerm (parsing [])) := ⟨by decide, rfl⟩

theorem witness_NoStepStopsTheMachine : Inv (parsing chunkP2) := by decide

theorem witness_StepKeepsTheRoundTrip :
    Inv (parsing []) ∧ RoundTrip (parsing []) ∧ step (parsing []) = .next (frmTerm (parsing [])) :=
  ⟨by decide, by decide, rfl⟩

/-- A state whose records are not none. -/
theorem witness_StepKeepsTheRecords :
    (nextState (exec .frmChunk (parsing chunkP2))).map
      (fun s => decide (RecordsOk s ∧ s.chunks ≠ []) && (nextState (step s)).isSome) = some true := by decide +kernel

theorem witness_ExecKeepsMemoryCanonical :
    Memory.wf (parsing chunkP2).buf = true ∧ exec .hostReset (parsing chunkP2) = .next (resetBlock Config.current (parsing chunkP2)) :=
  ⟨by decide, rfl⟩

/-- P1: a run that ends in `Parsed`. -/
theorem witness_ParsedRunRoundTrips :
    (after 3 (loadAndStart sigBytes)).map State.state = some .parsed := by decide +kernel

/-- The header chunks of P2 and P4, and no chunks. -/
theorem witness_HeaderChunksAreParsed :
    (∀ r ∈ [headerOf tIHDR 13 payE5 0x94EB6F9B, headerOf tihdr 14 payP4 0],
      r.typeTag.key = Config.keyIhdr ∧ 13 ≤ r.payload.length ∧ r.payload.length = r.length.toNat) ∧
    ∀ r ∈ ([] : List Record), r.typeTag.key = Config.keyIhdr := by decide +kernel

theorem witness_ParseEndsWithinTheBound :
    Inv (parsing chunkP2) ∧ (parsing chunkP2).state = .parsing ∧ (parsing chunkP2).host = [] := by decide

theorem witness_RetryReachesTheSameState :
    (failedOne.setHost [some .reset, some (.load sigBytes), some .start]).host =
      [some .reset, some (.load sigBytes), some .start] ∧
    (parsedOne.setHost [some .reset, some (.load sigBytes), some .start]).host =
      (failedOne.setHost [some .reset, some (.load sigBytes), some .start]).host ∧ 3 ≤ 3 := by decide

theorem witness_SerialReachesTheSameEndState :
    Inv (parsing chunkP2) ∧ (parsing chunkP2).state = .parsing ∧ 0 < (parsing chunkP2).rem := by decide

/-- A load that three bits of `AW` hold, at a count below the capacity. -/
theorem witness_MachineTakesItsParameters :
    (∀ bytes rest, (State.reset.setHost [some (.load [1, 2])]).host = some (.load bytes) :: rest →
      ({ Config.current with aw := some 3 } : Config).fits bytes.length = true) ∧
    ({ Config.current with maxChunks := some 1 } : Config).full (State.reset.setHost [some (.load [1, 2])]).chunkCount = false := by
  refine ⟨?_, rfl⟩
  intro bytes rest h
  cases h
  decide

/-- The machine that keeps unknown tags as base records, on a chunk "zTXt". -/
theorem witness_EveryParameterSettingKeepsTheInvariant :
    Inv (parsing unknownBytes) ∧
    (nextState (stepWith { Config.current with unknownPolicy := .base } (parsing unknownBytes))).map State.chunkCount =
      some 1 := by decide +kernel

end Sys2Proof.Tests
end

section
/-!
PROOFS. The parameters of the machine (R5): what the alternatives of its switches do, and that `AW` and `MAX_CHUNKS`
change no step within their bounds.
-/

namespace Sys2Proof

/-! The switches `TAG_CHARSET` and `IHDR_STRICT_LEN` in the decoder -/

/-- A byte under the letters alternative, by its number (R99). -/
theorem tagByteValid_letters (b : Byte) :
    tagByteValid .letters b = true ↔
      (0x41 ≤ b.toNat ∧ b.toNat ≤ 0x5A) ∨ (0x61 ≤ b.toNat ∧ b.toNat ≤ 0x7A) := by
  simp [tagByteValid, BitVec.le_def]

/-- A tag is valid when each of its bytes is (R99). -/
theorem tagValid_iff (cs : TagCharset) (t : Tag) :
    tagValid cs t = true ↔ ∀ b ∈ t.bytes, tagByteValid cs b = true := by
  simp [tagValid, Tag.bytes, and_assoc]

/-- Under the strict switch `decode_ihdr` takes thirteen bytes and no more (R87, D20). -/
theorem decodeIhdr_strict_isSome {cfg : Config} (hcfg : cfg.ihdrStrictLen = true) (payload : List Byte) :
    (decodeIhdr cfg payload).isSome = true ↔ payload.length = 13 := by
  unfold decodeIhdr
  by_cases hlen : payload.length = 13
  · simp [hlen, Config.ihdrLen, ihdrFields_isSome]
  · simp [hlen, hcfg, Config.ihdrLen]

/-- This hardware's parameters but for the two that are open (R5, R13, R14). -/
def Config.currentWithin (aw maxChunks : Option Nat) : Config :=
  { Config.current with aw := aw, maxChunks := maxChunks }

end Sys2Proof

namespace Sys2Proof.Machine

/-! The switch `UNKNOWN_POLICY`: under `base` no operation raises `UnknownChunkType` (R123) -/

/-- From `s` to `t` the condition `UnknownChunkType` was not raised. -/
def NoUnknownRaised (s t : State) : Prop :=
  t.faultCode = some .unknownChunkType → s.faultCode = some .unknownChunkType

theorem NoUnknownRaised.of_eq {s t : State} (h : t.faultCode = s.faultCode) : NoUnknownRaised s t := by
  intro ht
  rw [← h, ht]

theorem NoUnknownRaised.of_raise {c : Condition} (hc : c ≠ .unknownChunkType) (s s1 : State) :
    NoUnknownRaised s (raise c s1) := by
  intro ht
  simp [hc] at ht

theorem NoUnknownRaised.of_raiseInChunk {c : Condition} (hc : c ≠ .unknownChunkType) {s s1 : State}
    (h : s1.faultCode = s.faultCode) : NoUnknownRaised s (raiseInChunk c s1) := by
  by_cases hp : s1.state = .parsing
  · rw [raiseInChunk_parsing c hp]
    exact .of_raise hc s s1
  · rw [raiseInChunk_other c hp]
    exact .of_eq h

/-- A load writes no fault code (R143, R146). -/
theorem loadBuffer_faultCode {cfg : Config} {bytes : List Byte} {s t : State}
    (h : loadBuffer cfg bytes s = .next t) : t.faultCode = s.faultCode := by
  unfold loadBuffer at h
  split at h
  · split at h
    · cases h; rfl
    · cases h
  · cases h; rfl

/-- A read writes no fault code (R147). -/
theorem readValue_faultCode (sel : ReadSel) (s : State) : (readValue sel s).faultCode = s.faultCode := by
  unfold readValue
  split
  · rfl
  · split <;> rfl
  · split <;> rfl

/-- Termination writes no fault code (R100). -/
theorem frmTerm_faultCode (s : State) : (frmTerm s).faultCode = s.faultCode := by
  unfold frmTerm
  split <;> rfl

theorem sigCheck_noUnknownRaised {s t : State} (h : sigCheck s = .next t) : NoUnknownRaised s t := by
  obtain ⟨-, rfl⟩ | ⟨-, rfl⟩ | ⟨-, -, -, rfl⟩ := sigCheck_cases h
  · exact .of_eq rfl
  · exact .of_raise (by decide) s s
  · exact .of_eq rfl

section
variable {cfg : Config}

theorem tagInvalid_noUnknownRaised (tag : Tag) (s : State) : NoUnknownRaised s (tagInvalid cfg tag s) := by
  unfold tagInvalid
  split
  · exact .of_eq rfl
  · exact .of_raiseInChunk (by decide) rfl

theorem recIhdr_noUnknownRaised (tag : Tag) (length : Word) (payload : List Byte) (checksum : Word) (s : State) :
    NoUnknownRaised s (recIhdr cfg tag length payload checksum s) := by
  unfold recIhdr
  split
  · exact .of_eq rfl
  · exact .of_raiseInChunk (by decide) rfl

theorem recIhdrDecode_noUnknownRaised (payload : List Byte) (s : State) :
    NoUnknownRaised s (recIhdrDecode cfg payload s) := by
  unfold recIhdrDecode
  split
  · exact .of_eq rfl
  · exact .of_raiseInChunk (by decide) rfl

variable (hbase : cfg.unknownPolicy = .base)
include hbase

/-- Under the base policy the only condition `make_chunk` raises is the header's (R85, R87, R123). -/
theorem makeChunk_error_of_base {tag : Tag} {length : Word} {payload : List Byte} {checksum : Word}
    {computed : Checksum} {c : Condition} (h : makeChunk cfg tag length payload checksum computed = .error c) :
    c = .malformedHeaderChunk := by
  unfold makeChunk at h
  rw [hbase] at h
  split at h
  · split at h
    · cases h
    · cases h; rfl
  · cases h

/-- Under the base policy a tag outside the registry gets the base record (R85, D8). -/
theorem recDispatch_eq_recBase {tag : Tag} (hkey : lookupCtor cfg.registry tag.key = none) (length : Word)
    (payload : List Byte) (checksum : Word) (s : State) :
    recDispatch cfg tag length payload checksum s = recBase cfg tag length payload checksum s := by
  unfold recDispatch
  rw [hkey, hbase]

theorem recDispatch_noUnknownRaised (tag : Tag) (length : Word) (payload : List Byte) (checksum : Word)
    (s : State) : NoUnknownRaised s (recDispatch cfg tag length payload checksum s) := by
  obtain ⟨r, -, he⟩ | ⟨c, s1, hc, ha, -, -, -, -, he⟩ := recDispatch_cases cfg tag length payload checksum s
  · rw [he]
    exact .of_eq rfl
  · rw [he, makeChunk_error_of_base hbase hc]
    exact .of_raiseInChunk (by decide) (congrArg Arch.faultCode ha)

theorem frmChunk_noUnknownRaised {s t : State} (h : frmChunk cfg s = .next t) : NoUnknownRaised s t := by
  obtain ⟨-, rfl⟩ | ⟨-, -, -, rfl⟩ | ⟨hs, -, length, tag, -, -, hrest⟩ := frmChunk_cases h
  · exact .of_eq rfl
  · exact .of_raise (by decide) s s
  · obtain ⟨-, rfl⟩ | ⟨-, -, rfl⟩ | ⟨-, -, payload, checksum, -, -, rfl⟩ := hrest
    · exact .of_raise (by decide) s _
    · exact .of_raise (by decide) s _
    · obtain ⟨r, -, he⟩ | ⟨c, s1, hc, -, -, -, -, he⟩ :=
        acceptRecord_cases cfg tag length payload checksum (s := s.setHead length tag) hs
      · rw [he]
        exact .of_eq rfl
      · rw [he, makeChunk_error_of_base hbase hc]
        exact .of_raise (by decide) s s1

/-- Under the base policy no operation raises `UnknownChunkType` (R123). -/
theorem execWith_noUnknownRaised (i : Instr) {s t : State} (h : execWith cfg i s = .next t) :
    NoUnknownRaised s t := by
  cases i with
  | frmSigchk => exact sigCheck_noUnknownRaised h
  | frmChunk => exact frmChunk_noUnknownRaised hbase h
  | frmTerm => cases h; exact .of_eq (frmTerm_faultCode s)
  | tagInvalid tag => cases h; exact tagInvalid_noUnknownRaised tag s
  | recIhdr tag length payload checksum => cases h; exact recIhdr_noUnknownRaised tag length payload checksum s
  | recDispatch tag length payload checksum =>
    cases h; exact recDispatch_noUnknownRaised hbase tag length payload checksum s
  | recBase tag length payload checksum => cases h; exact .of_eq rfl
  | recProps tag => cases h; exact .of_eq rfl
  | recCcrc tag payload => cases h; exact .of_eq rfl
  | recIhdrDecode payload => cases h; exact recIhdrDecode_noUnknownRaised payload s
  | crcBit r poly => cases h; exact .of_eq rfl
  | crcByte r b poly => cases h; exact .of_eq rfl
  | crcBlock data poly init => cases h; exact .of_eq rfl
  | hostReset => cases h; intro ht; cases ht
  | hostLoad bytes => exact .of_eq (loadBuffer_faultCode h)
  | hostStart =>
    have hstart : execHostStart s = .next t := h
    unfold execHostStart at hstart
    split at hstart
    · exact sigCheck_noUnknownRaised hstart
    · cases hstart; exact .of_eq rfl
  | hostRead sel => cases h; exact .of_eq (readValue_faultCode sel s)

/-- Under the base policy no step raises `UnknownChunkType` (R123). -/
theorem stepWith_noUnknownRaised {s t : State} (h : stepWith cfg s = .next t) : NoUnknownRaised s t := by
  obtain ⟨e, rest, -, he⟩ | ⟨s1, -, hs1, hblock⟩ := stepWith_cases cfg s
  · exact execWith_noUnknownRaised hbase e.toInstr (s := s.setHost rest) (he.symm.trans h)
  · have hcode : s1.faultCode = s.faultCode := by rw [hs1, State.setHost_faultCode]
    obtain ⟨i, -, he⟩ | ⟨-, he⟩ := hblock
    · exact fun ht => hcode ▸ execWith_noUnknownRaised hbase i (he.symm.trans h) ht
    · cases he.symm.trans h
      exact .of_eq hcode

end

/-- Settles O28: each switch by the lemma about the one function that reads it; that no step raises `UnknownChunkType`
from the conditions `make_chunk` can raise under the base policy. -/
theorem switchesSelectTheAlternatives : Obligations.SwitchesSelectTheAlternatives := by
  unfold Obligations.SwitchesSelectTheAlternatives
  refine ⟨?_, ?_, ?_, ?_⟩
  · intro cfg tag length payload checksum s hbase hkey
    exact congrArg Host.Outcome.next (recDispatch_eq_recBase hbase hkey length payload checksum s)
  · intro cfg s t hbase hstep
    exact stepWith_noUnknownRaised hbase hstep
  · intro tag
    simp only [tagValid_iff, tagByteValid_letters]
  · intro cfg payload hstrict
    exact decodeIhdr_strict_isSome hstrict payload

/-! The open parameters `AW` and `MAX_CHUNKS` within their bounds -/

section
variable {aw maxChunks : Option Nat}

/-- Below the capacity `MAX_CHUNKS` changes nothing of the chunk step (R14, R99). -/
theorem frmChunk_currentWithin {s : State} (hfull : (Config.currentWithin aw maxChunks).full s.chunkCount = false) :
    frmChunk (Config.currentWithin aw maxChunks) s = frmChunk Config.current s := by
  have hcurrent : Config.current.full s.chunkCount = false := rfl
  unfold frmChunk
  rw [hfull, hcurrent]
  rfl

/-- A load that `AW` bits hold is the load (R13, R143). -/
theorem loadBuffer_currentWithin {bytes : List Byte}
    (hfits : (Config.currentWithin aw maxChunks).fits bytes.length = true) (s : State) :
    loadBuffer (Config.currentWithin aw maxChunks) bytes s = loadBuffer Config.current bytes s := by
  have hcurrent : Config.current.fits bytes.length = true := rfl
  unfold loadBuffer
  rw [hfits, hcurrent]

/-- Within their bounds `AW` and `MAX_CHUNKS` change no operation: a load reads the one, the chunk step the other, and
nothing else reads either. -/
theorem execWith_currentWithin (i : Instr) {s : State}
    (hfits : ∀ bytes, i = .hostLoad bytes → (Config.currentWithin aw maxChunks).fits bytes.length = true)
    (hfull : (Config.currentWithin aw maxChunks).full s.chunkCount = false) :
    execWith (Config.currentWithin aw maxChunks) i s = execWith Config.current i s := by
  cases i with
  | frmChunk => exact frmChunk_currentWithin hfull
  | hostLoad bytes => exact loadBuffer_currentWithin (hfits bytes rfl) s
  | _ => rfl

/-- A load is the host's: the framer performs none by itself (R96). -/
theorem nextOp_ne_hostLoad (s : State) (bytes : List Byte) : nextOp s ≠ some (.hostLoad bytes) := by
  unfold nextOp
  split
  · split <;> simp
  · simp
  · simp
  · simp

theorem blockStepWith_currentWithin {s : State}
    (hfull : (Config.currentWithin aw maxChunks).full s.chunkCount = false) :
    blockStepWith (Config.currentWithin aw maxChunks) s = blockStepWith Config.current s := by
  unfold blockStepWith
  cases hop : nextOp s with
  | none => rfl
  | some i =>
    refine execWith_currentWithin i (fun bytes hi => ?_) hfull
    exact absurd (hi ▸ hop) (nextOp_ne_hostLoad s bytes)

/-- A step at a count below `MAX_CHUNKS`, whose load if it is one `AW` holds, is the step of this hardware. -/
theorem stepWith_currentWithin {s : State}
    (hfits : ∀ bytes rest, s.host = some (.load bytes) :: rest →
      (Config.currentWithin aw maxChunks).fits bytes.length = true)
    (hfull : (Config.currentWithin aw maxChunks).full s.chunkCount = false) :
    stepWith (Config.currentWithin aw maxChunks) s = stepWith Config.current s := by
  unfold stepWith
  cases hhost : s.host with
  | nil => exact blockStepWith_currentWithin hfull
  | cons slot rest =>
    cases slot with
    | none => exact blockStepWith_currentWithin hfull
    | some e =>
      refine execWith_currentWithin e.toInstr (fun bytes he => ?_) hfull
      cases e with
      | load bytes' => cases he; exact hfits bytes rest hhost
      | _ => cases he

end

/-- Settles O59: operation by operation, and slot by slot of the host's list. -/
theorem machineTakesItsParameters : Obligations.MachineTakesItsParameters := by
  unfold Obligations.MachineTakesItsParameters
  refine ⟨exec_eq, step_eq, rfl, ?_⟩
  intro aw maxChunks s hfits hfull
  rw [step_eq]
  exact stepWith_currentWithin (aw := aw) (maxChunks := maxChunks) hfits hfull

end Sys2Proof.Machine
end

section
/-!
PROOFS. The state (`10_state.md`): what reset leaves, what every operation keeps of the records and of the buffer, and
that the working registers carry nothing from one step to the next.
-/

namespace Sys2Proof.Machine

/-! Reset and codes -/

/-- Settles O1: the reset state's elements are those of R28's table as it is written. -/
theorem resetStateIsTheTables : Obligations.ResetStateIsTheTables := rfl

/-- The derived wire is set in the terminal states and in no other (R15, R129). -/
theorem State.done_iff (s : State) : s.done = true ↔ s.state = .parsed ∨ s.state = .failed := by
  unfold State.done
  cases s.state <;> decide

/-- Settles O2: the two tables of numbers by evaluation, the wire by the four states. -/
theorem codesAndDoneWire : Obligations.CodesAndDoneWire :=
  ⟨by decide, by decide, State.done_iff⟩

/-- Settles O48: nothing has been consumed or produced at reset, and the buffer is empty. -/
theorem invariantsHoldAtReset : Obligations.InvariantsHoldAtReset := by
  unfold Obligations.InvariantsHoldAtReset
  have hinv : Inv State.reset := by decide
  have hround : RoundTrip State.reset := by decide
  have hrecords : RecordsOk State.reset := by decide
  exact ⟨hinv, hround, hrecords, State.reset_buf_wf⟩

/-! The records -/

/-- The records under any effect: kept, withdrawn, or one more of an accepted chunk (R14, R99 (e)). -/
theorem Effect.chunks_cases {cfg : Config} {s : State} {a : Arch} (h : Effect cfg s a) :
    a.chunks = s.chunks ∨ a.chunks = [] ∨ ∃ r, Accepts cfg s r ∧ a.chunks = s.chunks ++ [r] := by
  cases h with
  | nothing => exact .inl rfl
  | badSignature hs => exact .inr (.inl rfl)
  | chunkFails c hs hc => exact .inr (.inl rfl)
  | begins hs h8 hr => exact .inl rfl
  | appends r hr => exact .inr (.inr ⟨r, hr, rfl⟩)
  | ends hs hr => exact .inl rfl
  | resets => exact .inr (.inl rfl)
  | loads bytes hs => exact .inl rfl

/-- Under the current configuration `make_chunk` builds header records only: the key is the registry's one key, and the
payload has its seven fields (R85, R90, R123). -/
theorem makeChunk_current_ok {tag : Tag} {length : Word} {payload : List Byte} {checksum : Word}
    {computed : Checksum} {r : Record}
    (h : makeChunk Config.current tag length payload checksum computed = .ok r) :
    tag.key = Config.keyIhdr ∧ ∃ fields, ihdrFields payload = some fields ∧
      r = headerRecord (baseRecord tag length payload checksum computed) fields := by
  unfold makeChunk at h
  rw [lookupCtor_current, decodeIhdr_current] at h
  by_cases hkey : tag.key = Config.keyIhdr
  · rw [if_pos hkey] at h
    cases hfields : ihdrFields payload with
    | none => rw [hfields] at h; cases h
    | some fields => rw [hfields] at h; cases h; exact ⟨hkey, fields, rfl, rfl⟩
  · rw [if_neg hkey] at h
    cases h

/-- The record of an accepted chunk is what the spec says a record is (R22, R23, R25, R83). -/
theorem Accepts.recordOk {s : State} {r : Record} (h : Accepts Config.current s r) : RecordOk r := by
  obtain ⟨-, -, -, -, -, hpayload, -, hmake⟩ := h
  have hlength : r.payload.length = r.length.toNat := memRead_length hpayload
  have hmismatch := crcMismatch_current r.storedChecksum r.typeTag r.payload
  obtain ⟨hkey, fields, hfields, hr⟩ := makeChunk_current_ok hmake
  have h13 : 13 ≤ r.payload.length := by
    simpa [hfields] using (ihdrFields_isSome r.payload).symm
  refine ⟨hkey, hlength, h13, ?_, ?_, ?_, ?_⟩
  · exact congrArg Record.props hr
  · exact congrArg Record.computedChecksum hr
  · exact (congrArg Record.crcMismatch hr).trans hmismatch
  · rw [hfields]
    exact congrArg some (congrArg Record.variant hr).symm

/-- Settles O53: a step keeps the records, withdraws them, or appends the record of an accepted chunk. -/
theorem stepKeepsTheRecords : Obligations.StepKeepsTheRecords := by
  intro s t hs hstep r hr
  have hrecords : t.chunks = s.chunks ∨ t.chunks = [] ∨
      ∃ r, Accepts Config.current s r ∧ t.chunks = s.chunks ++ [r] := (step_effect hstep).chunks_cases
  obtain hkept | hnone | ⟨r', hacc, happend⟩ := hrecords
  · exact hs r (hkept ▸ hr)
  · rw [hnone] at hr
    cases hr
  · rw [happend, List.mem_append, List.mem_singleton] at hr
    obtain hold | rfl := hr
    · exact hs r hold
    · exact hacc.recordOk

/-! The buffer -/

/-- The buffer under any effect: kept, emptied, or filled by a load (R12, R43). -/
theorem Effect.buf_cases {cfg : Config} {s : State} {a : Arch} (h : Effect cfg s a) :
    a.buf = s.buf ∨ a.buf = [] ∨ ∃ bytes, a.buf = Memory.ofBytes bytes := by
  cases h with
  | nothing => exact .inl rfl
  | badSignature hs => exact .inl rfl
  | chunkFails c hs hc => exact .inl rfl
  | begins hs h8 hr => exact .inl rfl
  | appends r hr => exact .inl rfl
  | ends hs hr => exact .inl rfl
  | resets => exact .inr (.inl rfl)
  | loads bytes hs => exact .inr (.inr ⟨bytes, rfl⟩)

/-- Settles O50: the buffer is kept, emptied, or what a load leaves. -/
theorem execKeepsMemoryCanonical : Obligations.ExecKeepsMemoryCanonical := by
  intro i s t hwf hexec
  have hbuf : t.buf = s.buf ∨ t.buf = [] ∨ ∃ bytes, t.buf = Memory.ofBytes bytes :=
    (exec_effect i s t hexec).buf_cases
  obtain hkept | hempty | ⟨bytes, hload⟩ := hbuf
  · rw [hkept]
    exact hwf
  · rw [hempty]
    rfl
  · rw [hload]
    exact Memory.wf_ofBytes bytes

/-- `BUF` and `BUF_LEN` are the same in both states. -/
def SameBuffer (s t : State) : Prop := t.buf = s.buf ∧ t.bufLen = s.bufLen

theorem SameBuffer.of_arch {s t : State} (h : t.arch = s.arch) : SameBuffer s t :=
  ⟨congrArg Arch.buf h, congrArg Arch.bufLen h⟩

theorem SameBuffer.of_raiseInChunk {s s1 : State} (c : Condition) (h : s1.arch = s.arch) :
    SameBuffer s (raiseInChunk c s1) := by
  by_cases hp : s1.state = .parsing
  · rw [raiseInChunk_parsing c hp]
    exact .of_arch (t := s1) h
  · rw [raiseInChunk_other c hp]
    exact .of_arch h

/-- Everything a load can do when it answers a next state (R143, R146). -/
theorem loadBuffer_cases {cfg : Config} {bytes : List Byte} {s t : State}
    (h : loadBuffer cfg bytes s = .next t) :
    (s.state ≠ .unparsed ∧ t = s) ∨ (s.state = .unparsed ∧ t = s.loadBytes bytes) := by
  unfold loadBuffer at h
  split at h
  · rename_i hs
    split at h
    · cases h; exact .inr ⟨hs, rfl⟩
    · cases h
  · rename_i hs
    cases h; exact .inl ⟨hs, rfl⟩

/-- A start is the signature check, which does nothing outside `Unparsed` (R97, R145). -/
theorem execHostStart_eq_sigCheck (s : State) : execHostStart s = sigCheck s := by
  unfold execHostStart
  split
  · rfl
  · rename_i hs
    rw [sigCheck, if_neg hs]

/-- A read writes the model's own fields of reads and nothing of the block (R147; log entry 9). -/
theorem readValue_eq (sel : ReadSel) (s : State) :
    ∃ data index, readValue sel s = { s with readData := data, freeIndex := index } := by
  unfold readValue giveFree
  split
  · exact ⟨_, s.freeIndex, rfl⟩
  · split
    · exact ⟨_, s.freeIndex, rfl⟩
    · exact ⟨_, s.freeIndex + 1, rfl⟩
  · split
    · exact ⟨_, s.freeIndex, rfl⟩
    · exact ⟨_, s.freeIndex + 1, rfl⟩

/-- A read changes nothing of the architectural state (R147). -/
@[simp] theorem readValue_arch (sel : ReadSel) (s : State) : (readValue sel s).arch = s.arch := by
  obtain ⟨data, index, he⟩ := readValue_eq sel s
  rw [he]
  rfl

section
variable {cfg : Config} {s t : State}

theorem sigCheck_sameBuffer (h : sigCheck s = .next t) : SameBuffer s t := by
  obtain ⟨-, rfl⟩ | ⟨-, rfl⟩ | ⟨-, -, -, rfl⟩ := sigCheck_cases h
  · exact ⟨rfl, rfl⟩
  · exact ⟨rfl, rfl⟩
  · exact ⟨rfl, rfl⟩

theorem frmTerm_sameBuffer (s : State) : SameBuffer s (frmTerm s) := by
  unfold frmTerm
  split
  · exact ⟨rfl, rfl⟩
  · exact ⟨rfl, rfl⟩

theorem tagInvalid_sameBuffer (tag : Tag) (s : State) : SameBuffer s (tagInvalid cfg tag s) := by
  unfold tagInvalid
  split
  · exact .of_arch rfl
  · exact .of_raiseInChunk _ rfl

theorem recIhdrDecode_sameBuffer (payload : List Byte) (s : State) :
    SameBuffer s (recIhdrDecode cfg payload s) := by
  unfold recIhdrDecode
  split
  · exact .of_arch rfl
  · exact .of_raiseInChunk _ rfl

theorem recIhdr_sameBuffer (tag : Tag) (length : Word) (payload : List Byte) (checksum : Word) (s : State) :
    SameBuffer s (recIhdr cfg tag length payload checksum s) := by
  unfold recIhdr
  split
  · exact .of_arch rfl
  · exact .of_raiseInChunk _ rfl

theorem recDispatch_sameBuffer (tag : Tag) (length : Word) (payload : List Byte) (checksum : Word) (s : State) :
    SameBuffer s (recDispatch cfg tag length payload checksum s) := by
  obtain ⟨r, -, he⟩ | ⟨c, s1, -, ha, -, -, -, -, he⟩ := recDispatch_cases cfg tag length payload checksum s
  · rw [he]
    exact .of_arch rfl
  · rw [he]
    exact .of_raiseInChunk c ha

theorem frmChunk_sameBuffer (h : frmChunk cfg s = .next t) : SameBuffer s t := by
  obtain ⟨-, rfl⟩ | ⟨-, -, -, rfl⟩ | ⟨hs, -, length, tag, -, -, hrest⟩ := frmChunk_cases h
  · exact ⟨rfl, rfl⟩
  · exact ⟨rfl, rfl⟩
  · obtain ⟨-, rfl⟩ | ⟨-, -, rfl⟩ | ⟨-, -, payload, checksum, -, -, rfl⟩ := hrest
    · exact ⟨rfl, rfl⟩
    · exact ⟨rfl, rfl⟩
    · obtain ⟨r, -, he⟩ | ⟨c, s1, -, ha, -, -, -, he⟩ :=
        acceptRecord_cases cfg tag length payload checksum (s := s.setHead length tag) hs
      · rw [he]
        exact ⟨rfl, rfl⟩
      · rw [he]
        exact .of_arch (t := s1) ha

/-- The operations that write the buffer: reset, and a load before the start (R12, R43). -/
theorem execWith_sameBuffer (i : Instr) (h : execWith cfg i s = .next t) :
    SameBuffer s t ∨ i = .hostReset ∨ (∃ bytes, i = .hostLoad bytes) ∧ s.state = .unparsed := by
  cases i with
  | hostReset => exact .inr (.inl rfl)
  | hostLoad bytes =>
    obtain ⟨-, rfl⟩ | ⟨hs, -⟩ := loadBuffer_cases h
    · exact .inl ⟨rfl, rfl⟩
    · exact .inr (.inr ⟨⟨bytes, rfl⟩, hs⟩)
  | frmSigchk => exact .inl (sigCheck_sameBuffer h)
  | frmChunk => exact .inl (frmChunk_sameBuffer h)
  | frmTerm => cases h; exact .inl (frmTerm_sameBuffer s)
  | tagInvalid tag => cases h; exact .inl (tagInvalid_sameBuffer tag s)
  | recIhdr tag length payload checksum => cases h; exact .inl (recIhdr_sameBuffer tag length payload checksum s)
  | recDispatch tag length payload checksum =>
    cases h; exact .inl (recDispatch_sameBuffer tag length payload checksum s)
  | recBase tag length payload checksum => cases h; exact .inl (.of_arch rfl)
  | recProps tag => cases h; exact .inl (.of_arch rfl)
  | recCcrc tag payload => cases h; exact .inl (.of_arch rfl)
  | recIhdrDecode payload => cases h; exact .inl (recIhdrDecode_sameBuffer payload s)
  | crcBit r poly => cases h; exact .inl (.of_arch rfl)
  | crcByte r b poly => cases h; exact .inl (.of_arch rfl)
  | crcBlock data poly init => cases h; exact .inl (.of_arch rfl)
  | hostStart => exact .inl (sigCheck_sameBuffer ((execHostStart_eq_sigCheck s).symm.trans h))
  | hostRead sel => cases h; exact .inl (.of_arch (readValue_arch sel s))

end

/-- Settles O38: operation by operation, each by its frame over the buffer. -/
theorem onlyLoadAndResetWriteTheBuffer : Obligations.OnlyLoadAndResetWriteTheBuffer := by
  intro i s t h
  exact execWith_sameBuffer i (exec_eq i s ▸ h)

/-! The working registers (R11). A state's visible part is the state with them, and the model's own fields but the
host's list, at their reset values; every operation is shown to do the same from a state as from its visible part. -/

/-- The state with its architectural part and the host's coming events kept, and everything else as at reset. -/
def State.visible (s : State) : State :=
  { State.reset with
    buf := s.buf
    bufLen := s.bufLen
    state := s.state
    cursor := s.cursor
    chunks := s.chunks
    chunkCount := s.chunkCount
    faultCode := s.faultCode
    faultOffset := s.faultOffset
    host := s.host }

/-- The visible part of an outcome: of its next state, and a stop as it is. -/
def visibleOutcome : Host.Outcome State Fault Refusal → Host.Outcome State Fault Refusal
  | .next t => .next t.visible
  | .fault f => .fault f
  | .refused r => .refused r

@[simp] theorem State.visible_arch (s : State) : s.visible.arch = s.arch := rfl
@[simp] theorem State.visible_host (s : State) : s.visible.host = s.host := rfl
@[simp] theorem State.visible_state (s : State) : s.visible.state = s.state := rfl

theorem State.visible_eq_iff {s s' : State} : s.visible = s'.visible ↔ s.arch = s'.arch ∧ s.host = s'.host := by
  constructor
  · intro h
    have harch := congrArg State.arch h
    have hhost := congrArg State.host h
    exact ⟨harch, hhost⟩
  · rintro ⟨harch, hhost⟩
    simp only [State.arch, Arch.mk.injEq] at harch
    simp [State.visible, harch, hhost]

/-- Outcomes with the same visible part are both next states that agree in it, or the same stop. -/
theorem visibleOutcome_eq_cases {o o' : Host.Outcome State Fault Refusal} (h : visibleOutcome o = visibleOutcome o') :
    (∃ t t', o = .next t ∧ o' = .next t' ∧ t.arch = t'.arch ∧ t.host = t'.host) ∨
    (∃ f, o = .fault f ∧ o' = .fault f) ∨ ∃ r, o = .refused r ∧ o' = .refused r := by
  cases o with
  | next t =>
    cases o' with
    | next t' =>
      injection h with hvisible
      exact .inl ⟨t, t', rfl, rfl, State.visible_eq_iff.mp hvisible⟩
    | fault f => cases h
    | refused r => cases h
  | fault f =>
    cases o' with
    | fault f' => cases h; exact .inr (.inl ⟨f, rfl, rfl⟩)
    | next t' => cases h
    | refused r => cases h
  | refused r =>
    cases o' with
    | refused r' => cases h; exact .inr (.inr ⟨r, rfl, rfl⟩)
    | next t' => cases h
    | fault f => cases h

/-- The failure transition reads and writes the visible part only (R119). -/
theorem raise_visible (c : Condition) (s : State) : (raise c s).visible = raise c s.visible := rfl

theorem raiseInChunk_visible (c : Condition) (s : State) :
    (raiseInChunk c s).visible = raiseInChunk c s.visible := by
  by_cases hp : s.state = .parsing
  · rw [raiseInChunk_parsing c hp, raiseInChunk_parsing c (s := s.visible) hp, raise_visible]
  · rw [raiseInChunk_other c hp, raiseInChunk_other c (s := s.visible) hp]

/-- A raise over changed working registers is a raise. -/
theorem raiseInChunk_visible_congr (c : Condition) {s s' : State} (h : s.visible = s'.visible) :
    (raiseInChunk c s).visible = (raiseInChunk c s').visible := by
  rw [raiseInChunk_visible, raiseInChunk_visible, h]

theorem readValue_visible (sel : ReadSel) (s : State) : (readValue sel s).visible = s.visible := by
  obtain ⟨data, index, he⟩ := readValue_eq sel s
  rw [he]
  rfl

section
variable {cfg : Config}

theorem tagInvalid_visible (tag : Tag) (s : State) :
    (tagInvalid cfg tag s).visible = (tagInvalid cfg tag s.visible).visible := by
  unfold tagInvalid
  split
  · rfl
  · exact raiseInChunk_visible_congr _ rfl

theorem recIhdrDecode_visible (payload : List Byte) (s : State) :
    (recIhdrDecode cfg payload s).visible = (recIhdrDecode cfg payload s.visible).visible := by
  unfold recIhdrDecode
  cases decodeIhdr cfg payload with
  | some h => rfl
  | none => exact raiseInChunk_visible_congr _ rfl

theorem recIhdr_visible (tag : Tag) (length : Word) (payload : List Byte) (checksum : Word) (s : State) :
    (recIhdr cfg tag length payload checksum s).visible =
      (recIhdr cfg tag length payload checksum s.visible).visible := by
  unfold recIhdr
  cases decodeIhdr cfg payload with
  | some h => rfl
  | none => exact raiseInChunk_visible_congr _ rfl

theorem recDispatch_visible (tag : Tag) (length : Word) (payload : List Byte) (checksum : Word) (s : State) :
    (recDispatch cfg tag length payload checksum s).visible =
      (recDispatch cfg tag length payload checksum s.visible).visible := by
  unfold recDispatch
  cases lookupCtor cfg.registry tag.key with
  | some ctor =>
    cases ctor
    exact recIhdr_visible tag length payload checksum s
  | none =>
    cases cfg.unknownPolicy with
    | fatal => exact raiseInChunk_visible_congr _ rfl
    | base => rfl

/-- The record a chunk step appends, or the condition it raises, is `make_chunk`'s of the slices (R85, R99 (e)). -/
theorem acceptRecord_visible (tag : Tag) (length : Word) (payload : List Byte) (checksum : Word) {s : State}
    (hs : s.state = .parsing) :
    (acceptRecord (recDispatch cfg tag length payload checksum s)).visible =
      (acceptRecord (recDispatch cfg tag length payload checksum s.visible)).visible := by
  have hcases := acceptRecord_cases cfg tag length payload checksum hs
  have hcases' := acceptRecord_cases cfg tag length payload checksum (s := s.visible) hs
  cases hmake : makeChunk cfg tag length payload checksum (computedChecksum cfg tag payload) with
  | ok r =>
    simp only [hmake, Except.ok.injEq, reduceCtorEq, false_and, exists_false, or_false,
      exists_eq_left'] at hcases hcases'
    rw [hcases, hcases']
    rfl
  | error c =>
    simp only [hmake, Except.error.injEq, reduceCtorEq, false_and, exists_false, false_or, exists_and_left,
      exists_eq_left'] at hcases hcases'
    obtain ⟨s1, harch, hhost, -, -, he⟩ := hcases
    obtain ⟨s1', harch', hhost', -, -, he'⟩ := hcases'
    have hvisible : s1.visible = s1'.visible :=
      State.visible_eq_iff.mpr ⟨harch.trans harch'.symm, hhost.trans hhost'.symm⟩
    rw [he, he', raise_visible, raise_visible, hvisible]

theorem sigCheck_visible (s : State) : visibleOutcome (sigCheck s) = visibleOutcome (sigCheck s.visible) := by
  have hread : readSig s.visible = readSig s := rfl
  unfold sigCheck
  rw [hread]
  cases readSig s with
  | none => simp only [apply_ite visibleOutcome]; rfl
  | some bytes => simp only [apply_ite visibleOutcome]; rfl

theorem frmTerm_visible (s : State) : (frmTerm s).visible = (frmTerm s.visible).visible := by
  unfold frmTerm
  simp only [apply_ite State.visible]
  rfl

theorem loadBuffer_visible (bytes : List Byte) (s : State) :
    visibleOutcome (loadBuffer cfg bytes s) = visibleOutcome (loadBuffer cfg bytes s.visible) := by
  unfold loadBuffer
  simp only [apply_ite visibleOutcome]
  rfl

theorem chunkBody_visible (length : Word) (tag : Tag) {s : State} (hs : s.state = .parsing) :
    visibleOutcome (chunkBody cfg length tag s) = visibleOutcome (chunkBody cfg length tag s.visible) := by
  have hrem : s.visible.rem = s.rem := rfl
  have hpayload : readPayload s.visible s.visible.cursor length.toNat = readPayload s s.cursor length.toNat := rfl
  have hstored : readStored s.visible s.visible.cursor length.toNat = readStored s s.cursor length.toNat := rfl
  unfold chunkBody
  rw [hrem, hpayload, hstored]
  split
  · split
    · rfl
    · cases readPayload s s.cursor length.toNat with
      | none => rfl
      | some payload =>
        cases readStored s s.cursor length.toNat with
        | none => rfl
        | some checksum => exact congrArg Host.Outcome.next (acceptRecord_visible tag length payload checksum hs)
  · exact congrArg Host.Outcome.next (tagInvalid_visible tag s)

theorem frmChunk_visible (s : State) : visibleOutcome (frmChunk cfg s) = visibleOutcome (frmChunk cfg s.visible) := by
  have hrem : s.visible.rem = s.rem := rfl
  have hcount : s.visible.chunkCount = s.chunkCount := rfl
  have hlength : readLength s.visible s.visible.cursor = readLength s s.cursor := rfl
  have htag : readTag s.visible s.visible.cursor = readTag s s.cursor := rfl
  unfold frmChunk
  rw [State.visible_state, hrem, hcount, hlength, htag]
  split
  · rename_i hen
    split
    · rfl
    · split
      · rfl
      · cases readLength s s.cursor with
        | none => rfl
        | some length =>
          cases readTag s s.cursor with
          | none => rfl
          | some tag =>
            calc visibleOutcome (chunkBody cfg length tag (s.setHead length tag))
                = visibleOutcome (chunkBody cfg length tag s.visible) := chunkBody_visible length tag hen.1
              _ = visibleOutcome (chunkBody cfg length tag (s.visible.setHead length tag)) :=
                  (chunkBody_visible length tag (s := s.visible.setHead length tag) hen.1).symm
  · rfl

/-- Every operation does the same from a state as from its visible part (R11). -/
theorem execWith_visible (i : Instr) (s : State) :
    visibleOutcome (execWith cfg i s) = visibleOutcome (execWith cfg i s.visible) := by
  cases i with
  | frmSigchk => exact sigCheck_visible s
  | frmChunk => exact frmChunk_visible s
  | frmTerm => exact congrArg Host.Outcome.next (frmTerm_visible s)
  | tagInvalid tag => exact congrArg Host.Outcome.next (tagInvalid_visible tag s)
  | recIhdr tag length payload checksum =>
    exact congrArg Host.Outcome.next (recIhdr_visible tag length payload checksum s)
  | recDispatch tag length payload checksum =>
    exact congrArg Host.Outcome.next (recDispatch_visible tag length payload checksum s)
  | recIhdrDecode payload => exact congrArg Host.Outcome.next (recIhdrDecode_visible payload s)
  | hostLoad bytes => exact loadBuffer_visible bytes s
  | hostStart =>
    change visibleOutcome (execHostStart s) = visibleOutcome (execHostStart s.visible)
    rw [execHostStart_eq_sigCheck, execHostStart_eq_sigCheck, sigCheck_visible]
  | hostRead sel =>
    refine congrArg Host.Outcome.next ?_
    rw [readValue_visible, readValue_visible]
    rfl
  | recBase tag length payload checksum => rfl
  | recProps tag => rfl
  | recCcrc tag payload => rfl
  | crcBit r poly => rfl
  | crcByte r b poly => rfl
  | crcBlock data poly init => rfl
  | hostReset => rfl

theorem blockStepWith_visible (s : State) :
    visibleOutcome (blockStepWith cfg s) = visibleOutcome (blockStepWith cfg s.visible) := by
  have hop : nextOp s.visible = nextOp s := rfl
  unfold blockStepWith
  rw [hop]
  cases nextOp s with
  | some i => exact execWith_visible i s
  | none => rfl

/-- A step does the same from a state as from its visible part (R11, R96). -/
theorem stepWith_visible (s : State) :
    visibleOutcome (stepWith cfg s) = visibleOutcome (stepWith cfg s.visible) := by
  unfold stepWith
  rw [State.visible_host]
  cases s.host with
  | nil => exact blockStepWith_visible s
  | cons slot rest =>
    cases slot with
    | some e => exact execWith_visible e.toInstr (s.setHost rest)
    | none => exact blockStepWith_visible (s.setHost rest)

end

/-- Settles O39: both steps are, in what is visible, the step of the one visible part the two states have. -/
theorem workingRegistersAreDead : Obligations.WorkingRegistersAreDead := by
  intro s s' harch hhost
  have hvisible : s.visible = s'.visible := State.visible_eq_iff.mpr ⟨harch, hhost⟩
  refine visibleOutcome_eq_cases ?_
  rw [step_eq, step_eq, stepWith_visible s, hvisible, ← stepWith_visible s']

end Sys2Proof.Machine
end

section
/-!
PROOFS. The memory (`20_memory.md`): what `MemRead` answers on a loaded buffer, the value of a big-endian field, and
that no step from a state with the invariant stops the machine.
-/

namespace Sys2Proof.Machine

/-! Reading the buffer -/

/-- A load leaves an exact buffer, whatever was there before (R12, R143). -/
theorem State.loadBytes_bufExact (s : State) (bytes : List Byte) : BufExact (s.loadBytes bytes) :=
  Memory.ofBytes_fst bytes

/-- Settles O3: `MemRead` on an exact buffer is a slice of its bytes, and a loaded buffer's are the bytes loaded. -/
theorem memReadReturnsLoadedBytes : Obligations.MemReadReturnsLoadedBytes := by
  intro s bytes a n
  rw [memRead_eq (s.loadBytes_bufExact bytes) a n, State.loadBytes_buf, State.loadBytes_bufLen, Memory.bytes_ofBytes]

/-- Settles O4: the weighted sum of four bytes is below `2 ^ 32`, so it does not wrap. -/
theorem bigEndianFieldValue : Obligations.BigEndianFieldValue := be32_toNat

/-! No operation stops: on an exact buffer every read the framer makes is inside it (R33) -/

section
variable {cfg : Config} {s : State}

/-- On an exact buffer the signature check reads inside the buffer: it reads when there are 8 bytes (R97). -/
theorem sigCheck_exists_next (h : BufExact s) : ∃ t, sigCheck s = .next t := by
  unfold sigCheck
  split
  · split
    · exact ⟨_, rfl⟩
    · rename_i hlen
      have hread := memRead_eq h 0 Config.sigLen
      rw [if_pos (by omega)] at hread
      rw [readSig, hread]
      dsimp only
      split <;> exact ⟨_, rfl⟩
  · exact ⟨_, rfl⟩

/-- With the length and the tag at `CURSOR` as given, the rest of the chunk step reads inside the buffer: it reads when
there are `12 + length` bytes (R99 (c), (d)). -/
theorem chunkBody_exists_next {length : Word} {tag : Tag} {later : List Byte} (h : BufExact s)
    (hhead : s.remaining = be32Bytes length ++ tag.bytes ++ later) :
    ∃ t, chunkBody cfg length tag s = .next t := by
  unfold chunkBody
  split
  · split
    · exact ⟨_, rfl⟩
    · rename_i hrem
      obtain ⟨payload, checksum, rest, hlen, rfl⟩ := exists_tail h hhead (Nat.le_of_not_lt hrem)
      obtain ⟨hpayload, hstored⟩ := readTail h hlen hhead
      rw [hpayload, hstored]
      exact ⟨_, rfl⟩
  · exact ⟨_, rfl⟩

/-- On an exact buffer, below the capacity, the chunk step answers a next state (R99, U8). -/
theorem frmChunk_exists_next (hfull : cfg.full s.chunkCount = false) (h : BufExact s) :
    ∃ t, frmChunk cfg s = .next t := by
  unfold frmChunk
  split
  · rw [hfull, if_neg Bool.false_ne_true]
    split
    · exact ⟨_, rfl⟩
    · rename_i hrem
      obtain ⟨length, tag, later, hhead⟩ := exists_head h (Nat.le_of_not_lt hrem)
      obtain ⟨hlength, htag, -⟩ := readHead h hhead
      rw [hlength, htag]
      exact chunkBody_exists_next (s := s.setHead length tag) h hhead
  · exact ⟨_, rfl⟩

/-- A load that `AW` holds is not refused (R143). -/
theorem loadBuffer_exists_next {bytes : List Byte} (hfits : cfg.fits bytes.length = true) (s : State) :
    ∃ t, loadBuffer cfg bytes s = .next t := by
  unfold loadBuffer
  rw [hfits, if_pos rfl]
  split <;> exact ⟨_, rfl⟩

/-- On an exact buffer, within the bounds of `AW` and `MAX_CHUNKS`, every operation answers a next state. -/
theorem execWith_exists_next (i : Instr) (hfits : ∀ bytes, i = .hostLoad bytes → cfg.fits bytes.length = true)
    (hfull : cfg.full s.chunkCount = false) (h : BufExact s) : ∃ t, execWith cfg i s = .next t := by
  cases i with
  | frmSigchk => exact sigCheck_exists_next h
  | frmChunk => exact frmChunk_exists_next hfull h
  | hostLoad bytes => exact loadBuffer_exists_next (hfits bytes rfl) s
  | hostStart =>
    obtain ⟨t, ht⟩ := sigCheck_exists_next h
    exact ⟨t, (execHostStart_eq_sigCheck s).trans ht⟩
  | _ => exact ⟨_, rfl⟩

/-- This hardware's bounds are open, so on an exact buffer every operation of it answers a next state. -/
theorem exec_exists_next (i : Instr) (h : BufExact s) : ∃ t, exec i s = .next t := by
  rw [exec_eq]
  exact execWith_exists_next i (fun _ _ => rfl) rfl h

end

/-- Settles O51: of the invariant an exact buffer is enough, and a step is one operation on it or waits. -/
theorem noStepStopsTheMachine : Obligations.NoStepStopsTheMachine := by
  rintro s ⟨hbuf, -⟩
  obtain ⟨e, rest, -, he⟩ | ⟨s1, -, hs1, ⟨i, -, hi⟩ | ⟨-, hwait⟩⟩ := step_cases s
  · rw [he]
    exact exec_exists_next e.toInstr (s := s.setHost rest) hbuf
  · have hbuf1 : BufExact s1 := by rw [hs1]; exact hbuf
    rw [hi]
    exact exec_exists_next i hbuf1
  · exact ⟨s1, hwait⟩

end Sys2Proof.Machine
end

section
/-!
PROOFS. The encoding (`30_encoding.md`): upper-casing and the tag classes by their masks, and that the decoder and the
encoder undo each other.
-/

namespace Sys2Proof

/-! Upper-casing a byte -/

theorem upper_of_lower {b : Byte} (h : 0x61 ≤ b.toNat ∧ b.toNat ≤ 0x7A) : upper b = b - 0x20 :=
  if_pos h

theorem upper_of_not_lower {b : Byte} (h : ¬ (0x61 ≤ b.toNat ∧ b.toNat ≤ 0x7A)) : upper b = b :=
  if_neg h

/-- The mask 0xDF clears bit 5, whose weight is 0x20. -/
theorem eq_and_0xDF_or (b : Byte) : b = b &&& 0xDF ∨ b = (b &&& 0xDF) + 0x20 := by
  revert b; decide

/-- Settles O5: a lower-case letter has bit 5, which the subtraction of 0x20 and the mask 0xDF both clear. -/
theorem upperChangesLowerCaseOnly : Obligations.UpperChangesLowerCaseOnly := by
  refine fun b => ⟨fun hlow => ?_, upper_of_not_lower⟩
  have hmask : b - 0x20 = b &&& 0xDF := by
    revert b; decide
  rw [← hmask, upper_of_lower hlow]
  exact ⟨by bv_omega, rfl⟩

/-- A byte's upper case is an upper-case letter when the byte is that letter or its lower-case form (R56). -/
theorem upper_eq_letter_iff {u : Byte} (hu : 0x41 ≤ u.toNat ∧ u.toNat ≤ 0x5A) (b : Byte) :
    upper b = u ↔ b = u ∨ b = u + 0x20 := by
  by_cases hlow : 0x61 ≤ b.toNat ∧ b.toNat ≤ 0x7A
  · rw [upper_of_lower hlow]
    bv_omega
  · rw [upper_of_not_lower hlow]
    bv_omega

/-- A byte is an upper-case letter under the mask 0xDF when it is that letter or its lower-case form (R57). -/
theorem and_0xDF_eq_letter_iff {u : Byte} (hu : 0x41 ≤ u.toNat ∧ u.toNat ≤ 0x5A) (b : Byte) :
    b &&& 0xDF = u ↔ b = u ∨ b = u + 0x20 := by
  have hletter : u &&& 0xDF = u ∧ (u + 0x20) &&& 0xDF = u := by
    revert u; decide
  constructor
  · rintro rfl
    exact eq_and_0xDF_or b
  · rintro (rfl | rfl)
    · exact hletter.1
    · exact hletter.2

/-! Tags under a mask (R57) -/

theorem be32_inj {a0 a1 a2 a3 b0 b1 b2 b3 : Byte} :
    be32 a0 a1 a2 a3 = be32 b0 b1 b2 b3 ↔ a0 = b0 ∧ a1 = b1 ∧ a2 = b2 ∧ a3 = b3 := by
  constructor
  · intro h
    simpa [be32Bytes_be32] using congrArg be32Bytes h
  · rintro ⟨rfl, rfl, rfl, rfl⟩
    rfl

/-- A word is masked byte by byte. -/
theorem be32_and_be32 (a0 a1 a2 a3 b0 b1 b2 b3 : Byte) :
    be32 a0 a1 a2 a3 &&& be32 b0 b1 b2 b3 = be32 (a0 &&& b0) (a1 &&& b1) (a2 &&& b2) (a3 &&& b3) := by
  rw [be32_eq_append, be32_eq_append, be32_eq_append]
  -- `rw` does not see the width 32 as a sum, so the outermost concatenation is split by unification.
  exact BitVec.and_append.trans (by rw [BitVec.and_append, BitVec.and_append])

/-- `T` matches under a mask of four equal bytes when each byte of the tag matches under that byte. -/
theorem Tag.word_and_eq_iff (t : Tag) (m u0 u1 u2 u3 : Byte) :
    t.word &&& be32 m m m m = be32 u0 u1 u2 u3 ↔
      t.t0 &&& m = u0 ∧ t.t1 &&& m = u1 ∧ t.t2 &&& m = u2 ∧ t.t3 &&& m = u3 := by
  rw [Tag.word, be32_and_be32, be32_inj]

/-- The header keys, byte by byte: each upper-cases to its letter of "IHDR" (R55). -/
theorem Tag.key_eq_keyIhdr_iff (t : Tag) :
    t.key = Config.keyIhdr ↔ upper t.t0 = 0x49 ∧ upper t.t1 = 0x48 ∧ upper t.t2 = 0x44 ∧ upper t.t3 = 0x52 := by
  simp only [Tag.key, Config.keyIhdr, Tag.mk.injEq]

/-- The case variants of "IHDR" (R58). -/
theorem Tag.key_eq_keyIhdr_iff_caseVariant (t : Tag) :
    t.key = Config.keyIhdr ↔
      (t.t0 = 0x49 ∨ t.t0 = 0x69) ∧ (t.t1 = 0x48 ∨ t.t1 = 0x68) ∧
      (t.t2 = 0x44 ∨ t.t2 = 0x64) ∧ (t.t3 = 0x52 ∨ t.t3 = 0x72) := by
  rw [Tag.key_eq_keyIhdr_iff, upper_eq_letter_iff (by decide), upper_eq_letter_iff (by decide),
    upper_eq_letter_iff (by decide), upper_eq_letter_iff (by decide)]
  rfl

/-- The mask and match of the header class select the same tags (R57, R58). -/
theorem Tag.key_eq_keyIhdr_iff_mask (t : Tag) :
    t.key = Config.keyIhdr ↔ t.word &&& 0xDFDFDFDF = 0x49484452 := by
  have hbytes := t.word_and_eq_iff 0xDF 0x49 0x48 0x44 0x52
  rw [and_0xDF_eq_letter_iff (by decide), and_0xDF_eq_letter_iff (by decide),
    and_0xDF_eq_letter_iff (by decide), and_0xDF_eq_letter_iff (by decide)] at hbytes
  exact t.key_eq_keyIhdr_iff_caseVariant.trans hbytes.symm

/-- Settles O6: letter by letter, "upper-cases to it" and "equals it under 0xDF" both say "is it or its lower case". -/
theorem headerTagsAreCaseVariants : Obligations.HeaderTagsAreCaseVariants :=
  ⟨Tag.key_eq_keyIhdr_iff_caseVariant, Tag.key_eq_keyIhdr_iff_mask, rfl⟩

/-! The tag classes of this hardware -/

theorem tagByteValid_ascii7_iff (b : Byte) : tagByteValid .ascii7 b = true ↔ b &&& 0x80 = 0 := by
  revert b; decide

/-- A tag is valid when no byte of it has the top bit, the bits of 0x80808080 (R57, R99). -/
theorem tagValid_current_iff_mask (t : Tag) :
    tagValid Config.current.tagCharset t = true ↔ t.word &&& 0x80808080 = 0 := by
  have hbytes := t.word_and_eq_iff 0x80 0 0 0 0
  rw [← tagByteValid_ascii7_iff, ← tagByteValid_ascii7_iff, ← tagByteValid_ascii7_iff,
    ← tagByteValid_ascii7_iff] at hbytes
  refine Iff.trans ?_ hbytes.symm
  simp [tagValid_iff, Tag.bytes, Config.current]

/-- This hardware's registry knows the header's key alone (R57, R90). -/
theorem classify_current (t : Tag) :
    classify Config.current t =
      if tagValid Config.current.tagCharset t then if t.key = Config.keyIhdr then .known .header else .unknown
      else .invalid := by
  rw [classify, lookupCtor_current]
  by_cases hkey : t.key = Config.keyIhdr <;> simp [hkey]

/-- Settles O7: validity and the header's key are each a mask and a match of `T`. -/
theorem tagClassesByMask : Obligations.TagClassesByMask := by
  intro t
  rw [classify_current]
  simp only [tagValid_current_iff_mask, Tag.key_eq_keyIhdr_iff_mask, ite_not, ne_eq]

/-! Decoding an encoding -/

/-- In `Parsing`, twelve bytes or more are a length, a tag and what follows them (R45, R47). -/
theorem decode_parsing_eq (cfg : Config) (len : Word) (tag : Tag) {later : List Byte} (h : 4 ≤ later.length) :
    decode cfg .parsing (be32Bytes len ++ tag.bytes ++ later) = decodeBody cfg len tag later :=
  decodeChunk_eq cfg len tag later h

/-- A chunk whose tag is not invalid decodes to the row of its tag (R47, R57). -/
theorem decode_encodeChunk {cfg : Config} {tag : Tag} (hc : classify cfg tag ≠ .invalid) {len : Word}
    {payload : List Byte} (hp : payload.length = len.toNat) (crc : Word) (rest : List Byte) :
    decode cfg .parsing (encodeChunk len tag payload crc ++ rest) = .op (decodeTag cfg tag len payload crc) rest := by
  have hassoc : encodeChunk len tag payload crc ++ rest =
      be32Bytes len ++ tag.bytes ++ (payload ++ be32Bytes crc ++ rest) := by
    simp only [encodeChunk, List.append_assoc]
  rw [hassoc, decode_parsing_eq cfg len tag (by simp; omega), decodeBody_complete cfg len tag payload crc rest hp hc]

/-- A chunk of length 0 with an invalid tag is twelve bytes, all of them its element (R53). -/
theorem decode_encodeChunk_invalid {cfg : Config} {tag : Tag} (hc : classify cfg tag = .invalid) (crc : Word)
    (rest : List Byte) :
    decode cfg .parsing (encodeChunk 0 tag [] crc ++ rest) = .op (.tagInvalid tag) rest := by
  have hassoc : encodeChunk 0 tag [] crc ++ rest = be32Bytes 0 ++ tag.bytes ++ (be32Bytes crc ++ rest) := by
    simp only [encodeChunk, List.append_assoc, List.nil_append]
  rw [hassoc, decode_parsing_eq cfg 0 tag (by simp), decodeBody, if_pos hc]
  rfl

theorem decode_sig (cfg : Config) (rest : List Byte) :
    decode cfg .unparsed (Config.sig ++ rest) = .op .frmSigchk rest := rfl

theorem payloadMatches_iff (length : Word) (payload : List Byte) :
    payloadMatches length payload = true ↔ payload.length = length.toNat := beq_iff_eq

theorem wellFormed_tagInvalid_iff (cfg : Config) (tag : Tag) :
    (Instr.tagInvalid tag).wellFormed cfg = true ↔ classify cfg tag = .invalid := beq_iff_eq

theorem wellFormed_recIhdr_iff (cfg : Config) (tag : Tag) (len : Word) (payload : List Byte) (crc : Word) :
    (Instr.recIhdr tag len payload crc).wellFormed cfg = true ↔
      payload.length = len.toNat ∧ classify cfg tag = .known .header := by
  simp only [Instr.wellFormed, Bool.and_eq_true, payloadMatches_iff, beq_iff_eq]

theorem wellFormed_recDispatch_iff (cfg : Config) (tag : Tag) (len : Word) (payload : List Byte) (crc : Word) :
    (Instr.recDispatch tag len payload crc).wellFormed cfg = true ↔
      payload.length = len.toNat ∧ classify cfg tag = .unknown := by
  simp only [Instr.wellFormed, Bool.and_eq_true, payloadMatches_iff, beq_iff_eq]

theorem decodeTag_of_known {cfg : Config} {tag : Tag} (hc : classify cfg tag = .known .header) (len : Word)
    (payload : List Byte) (crc : Word) : decodeTag cfg tag len payload crc = .recIhdr tag len payload crc := by
  rw [decodeTag, hc]

theorem decodeTag_of_unknown {cfg : Config} {tag : Tag} (hc : classify cfg tag = .unknown) (len : Word)
    (payload : List Byte) (crc : Word) : decodeTag cfg tag len payload crc = .recDispatch tag len payload crc := by
  rw [decodeTag, hc]

/-- Settles O8, by the operation: five have an encoding, and the tag of a chunk is of the class of its row. -/
theorem decodeOfEncode : Obligations.DecodeOfEncode := by
  intro i bytes rest hwf henc hend
  cases i with
  | frmSigchk =>
    cases henc
    exact decode_sig _ rest
  | frmTerm =>
    cases henc
    rw [hend rfl]
    rfl
  | tagInvalid tag =>
    cases henc
    exact decode_encodeChunk_invalid ((wellFormed_tagInvalid_iff _ tag).1 hwf) 0 rest
  | recIhdr tag len payload crc =>
    cases henc
    obtain ⟨hp, hc⟩ := (wellFormed_recIhdr_iff _ tag len payload crc).1 hwf
    have hvalid : classify Config.current tag ≠ .invalid := by simp [hc]
    rw [decodedIn, decode_encodeChunk hvalid hp crc rest, decodeTag_of_known hc]
  | recDispatch tag len payload crc =>
    cases henc
    obtain ⟨hp, hc⟩ := (wellFormed_recDispatch_iff _ tag len payload crc).1 hwf
    have hvalid : classify Config.current tag ≠ .invalid := by simp [hc]
    rw [decodedIn, decode_encodeChunk hvalid hp crc rest, decodeTag_of_unknown hc]
  | _ => cases henc

/-! Encoding what is decoded -/

/-- The signature check takes the signature and nothing more (R46). -/
theorem decodeSig_cases {bytes rest : List Byte} {i : Instr} (h : decodeSig bytes = .op i rest) :
    i = .frmSigchk ∧ bytes = Config.sig ++ rest := by
  unfold decodeSig at h
  split at h
  · next hsig =>
    cases h
    exact ⟨rfl, by rw [← hsig, List.take_append_drop]⟩
  · cases h

/-- An operation decoded by format CHUNK is decoded from a length, a tag and what follows them (R47). -/
theorem decodeChunk_cases {cfg : Config} {bytes rest : List Byte} {i : Instr}
    (h : decodeChunk cfg bytes = .op i rest) :
    ∃ len tag later, bytes = be32Bytes len ++ tag.bytes ++ later ∧ decodeBody cfg len tag later = .op i rest := by
  unfold decodeChunk at h
  split at h
  · cases h
  · split at h
    · next l0 l1 l2 l3 t0 t1 t2 t3 later _ =>
      exact ⟨be32 l0 l1 l2 l3, ⟨t0, t1, t2, t3⟩, later, by rw [be32Bytes_be32]; rfl, h⟩
    · cases h

/-- Everything `decode` can answer as an operation, by the framer state it is met in (R45). -/
theorem decode_cases {cfg : Config} {f : FramerState} {bytes rest : List Byte} {i : Instr}
    (h : decode cfg f bytes = .op i rest) :
    (f = .unparsed ∧ i = .frmSigchk ∧ bytes = Config.sig ++ rest) ∨
    (f = .parsing ∧ i = .frmTerm ∧ bytes = [] ∧ rest = []) ∨
    (f = .parsing ∧ ∃ len tag later,
      bytes = be32Bytes len ++ tag.bytes ++ later ∧ decodeBody cfg len tag later = .op i rest) := by
  cases f with
  | unparsed => exact .inl ⟨rfl, decodeSig_cases h⟩
  | parsing =>
    cases bytes with
    | nil =>
      cases h
      exact .inr (.inl ⟨rfl, rfl, rfl, rfl⟩)
    | cons b bs => exact .inr (.inr ⟨rfl, decodeChunk_cases h⟩)
  | parsed => cases h
  | failed => cases h

/-- The row that a tag which is not invalid selects is well formed and encoded as its chunk (R57). -/
theorem decodeTag_wellFormed_encode {cfg : Config} {tag : Tag} (hc : classify cfg tag ≠ .invalid) {len : Word}
    {payload : List Byte} (hp : payload.length = len.toNat) (crc : Word) :
    (decodeTag cfg tag len payload crc).wellFormed cfg = true ∧
      encode (decodeTag cfg tag len payload crc) = some (encodeChunk len tag payload crc) := by
  match hcls : classify cfg tag with
  | .invalid => exact absurd hcls hc
  | .known .header =>
    rw [decodeTag_of_known hcls]
    exact ⟨(wellFormed_recIhdr_iff ..).2 ⟨hp, hcls⟩, rfl⟩
  | .unknown =>
    rw [decodeTag_of_unknown hcls]
    exact ⟨(wellFormed_recDispatch_iff ..).2 ⟨hp, hcls⟩, rfl⟩

/-- Settles O9, by what `decode` can answer: the signature, the end, an invalid tag, or a complete chunk. -/
theorem encodeOfDecode : Obligations.EncodeOfDecode := by
  intro f bytes rest i h
  obtain ⟨-, rfl, rfl⟩ | ⟨-, rfl, rfl, rfl⟩ | ⟨-, len, tag, later, rfl, hbody⟩ := decode_cases h
  · exact ⟨rfl, .inr ⟨Config.sig, rfl, rfl⟩⟩
  · exact ⟨rfl, .inr ⟨[], rfl, rfl⟩⟩
  · obtain ⟨hc, rfl, rfl⟩ | ⟨hc, payload, crc, hp, rfl, rfl⟩ := decodeBody_cases hbody
    · exact ⟨(wellFormed_tagInvalid_iff _ tag).2 hc, .inl ⟨tag, len, later, rfl, rfl, rfl⟩⟩
    · obtain ⟨hwf, henc⟩ := decodeTag_wellFormed_encode hc hp crc
      exact ⟨hwf, .inr ⟨_, henc, by simp only [encodeChunk, List.append_assoc]⟩⟩

end Sys2Proof
end

section
/-!
PROOFS. The checksum engine (O11 to O16). Bit 0 of the register selects the polynomial, so `crcBit` is XOR-linear in the
register; with bit 31 of the polynomial set the shifted-out bit is seen in bit 31, so it is also a bijection. Both facts
lift to `crcBits` by induction on the number of steps, to `crcByte`, and to `crcBlock` by induction on the bytes.
-/

namespace Sys2Proof.Machine

/-! One bit step (R66) -/

/-- A register whose bit 0 is clear is only shifted. -/
theorem crcBit_of_bit_zero_false {r : Word} (h : r.getLsbD 0 = false) (poly : Word) : crcBit r poly = r >>> 1 :=
  if_neg (ne_true_of_eq_false h)

theorem crcBit_of_bit_zero_true {r : Word} (h : r.getLsbD 0 = true) (poly : Word) :
    crcBit r poly = (r >>> 1) ^^^ poly :=
  if_pos h

/-- The conditional XOR, bit by bit: bit 0 of the register masks the polynomial. -/
theorem crcBit_getLsbD (r poly : Word) (i : Nat) :
    (crcBit r poly).getLsbD i = (r.getLsbD (i + 1) ^^ (r.getLsbD 0 && poly.getLsbD i)) := by
  cases h : r.getLsbD 0 with
  | false => rw [crcBit_of_bit_zero_false h, BitVec.getLsbD_ushiftRight, Nat.add_comm, Bool.false_and, Bool.xor_false]
  | true =>
    rw [crcBit_of_bit_zero_true h, BitVec.getLsbD_xor, BitVec.getLsbD_ushiftRight, Nat.add_comm, Bool.true_and]

theorem crcBitInverse_getLsbD_zero (y poly : Word) : (crcBitInverse y poly).getLsbD 0 = y.getLsbD 31 := by
  cases h : y.getLsbD 31 with
  | false => simp only [crcBitInverse, h]; simp
  | true => simp only [crcBitInverse, h]; simp

theorem crcBitInverse_getLsbD_succ (y poly : Word) {i : Nat} (hi : i < 31) :
    (crcBitInverse y poly).getLsbD (i + 1) = (y.getLsbD i ^^ (y.getLsbD 31 && poly.getLsbD i)) := by
  have hi' : i + 1 < 32 := Nat.succ_lt_succ hi
  cases h : y.getLsbD 31 with
  | false => simp only [crcBitInverse, h]; simp [hi', -BitVec.getLsbD_eq_getElem]
  | true => simp only [crcBitInverse, h]; simp [hi', -BitVec.getLsbD_eq_getElem]

@[simp] theorem crcBit_zero (poly : Word) : crcBit 0 poly = 0 := rfl

theorem crcBit_one (poly : Word) : crcBit 1 poly = poly := BitVec.zero_xor

theorem crcBit_getLsbD_top (r poly : Word) : (crcBit r poly).getLsbD 31 = (r.getLsbD 0 && poly.getLsbD 31) := by
  rw [crcBit_getLsbD, BitVec.getLsbD_of_ge r 32 le_rfl, Bool.false_xor]

/-- The step is linear over XOR for a fixed polynomial (R70). -/
theorem crcBit_xor (a b poly : Word) : crcBit (a ^^^ b) poly = crcBit a poly ^^^ crcBit b poly := by
  apply BitVec.eq_of_getLsbD_eq
  intro i _
  simp only [crcBit_getLsbD, BitVec.getLsbD_xor, Bool.and_xor_distrib_right, Bool.xor_assoc, Bool.xor_left_comm]

section
variable {poly : Word} (hpoly : poly.getLsbD 31 = true)
include hpoly

/-- The bit shifted out is seen in bit 31 (R66). -/
theorem crcBit_getLsbD_top_eq_bit_zero (r : Word) : (crcBit r poly).getLsbD 31 = r.getLsbD 0 := by
  rw [crcBit_getLsbD_top, hpoly, Bool.and_true]

theorem crcBitInverse_crcBit (r : Word) : crcBitInverse (crcBit r poly) poly = r := by
  have htop := crcBit_getLsbD_top_eq_bit_zero hpoly r
  apply BitVec.eq_of_getLsbD_eq
  rintro (_ | i) hi
  · rw [crcBitInverse_getLsbD_zero, htop]
  · rw [crcBitInverse_getLsbD_succ _ _ (by omega), htop, crcBit_getLsbD, Bool.xor_assoc, Bool.xor_self, Bool.xor_false]

theorem crcBit_crcBitInverse (y : Word) : crcBit (crcBitInverse y poly) poly = y := by
  apply BitVec.eq_of_getLsbD_eq
  intro i hi
  obtain hi | rfl : i < 31 ∨ i = 31 := by omega
  · rw [crcBit_getLsbD, crcBitInverse_getLsbD_zero, crcBitInverse_getLsbD_succ _ _ hi, Bool.xor_assoc, Bool.xor_self,
      Bool.xor_false]
  · rw [crcBit_getLsbD_top_eq_bit_zero hpoly, crcBitInverse_getLsbD_zero]

theorem crcBit_bijective : Function.Bijective (fun r => crcBit r poly) :=
  Function.bijective_iff_has_inverse.2
    ⟨fun y => crcBitInverse y poly, crcBitInverse_crcBit hpoly, crcBit_crcBitInverse hpoly⟩

theorem crcBits_bijective (n : Nat) : Function.Bijective (fun r => crcBits n r poly) := by
  induction n with
  | zero => exact Function.bijective_id
  | succ n ih => exact ih.comp (crcBit_bijective hpoly)

/-- For a fixed byte, absorbing it is a bijection of the register (R67). -/
theorem crcByte_bijective (b : Byte) : Function.Bijective (fun r => crcByte r b poly) :=
  (crcBits_bijective hpoly 8).comp (xor_left_involutive (b.setWidth 32)).bijective

/-- For a fixed register, absorbing a byte is injective in the byte (R67). -/
theorem crcByte_injective_byte (r : Word) : Function.Injective (fun b => crcByte r b poly) := by
  intro b b' h
  have hxor : r ^^^ b.setWidth 32 = r ^^^ b'.setWidth 32 := (crcBits_bijective hpoly 8).injective h
  have hzext : b.setWidth 32 = b'.setWidth 32 := (BitVec.xor_right_inj r).1 hxor
  simpa using congrArg (BitVec.setWidth 8) hzext

/-- The same bytes absorbed from two registers keep them apart (R71). -/
theorem crcBlock_injective_init (data : List Byte) : Function.Injective (fun init => crcBlock data poly init) := by
  induction data with
  | nil => exact Function.injective_id
  | cons b bs ih => exact ih.comp (crcByte_bijective hpoly b).injective

end

/-! Several bit steps, and one byte (R67, R70) -/

theorem crcBits_zero (n : Nat) (poly : Word) : crcBits n 0 poly = 0 := by
  induction n with
  | zero => rfl
  | succ n ih => rw [crcBits, crcBit_zero, ih]

theorem crcBits_xor (n : Nat) (a b poly : Word) : crcBits n (a ^^^ b) poly = crcBits n a poly ^^^ crcBits n b poly := by
  induction n generalizing a b with
  | zero => rfl
  | succ n ih => simp only [crcBits, crcBit_xor, ih]

/-- A register whose `n` low bits are clear is only shifted by `n` steps. -/
theorem crcBits_of_low_bits_false (n : Nat) {r : Word} (h : ∀ i < n, r.getLsbD i = false) (poly : Word) :
    crcBits n r poly = r >>> n := by
  induction n generalizing r with
  | zero => exact r.ushiftRight_zero.symm
  | succ n ih =>
    have hshift : ∀ i < n, (r >>> 1).getLsbD i = false := fun i hi => by
      rw [BitVec.getLsbD_ushiftRight, Nat.add_comm]
      exact h (i + 1) (by omega)
    rw [crcBits, crcBit_of_bit_zero_false (h 0 n.succ_pos), ih hshift, ← BitVec.shiftRight_add, Nat.add_comm]

theorem ushiftRight_shiftLeft_ushiftRight_eight (w : Word) : ((w >>> 8) <<< 8) >>> 8 = w >>> 8 := by
  apply BitVec.eq_of_getLsbD_eq
  intro i hi
  by_cases h : i < 24
  · simp [show 8 + i < 32 by omega]
  · simp [BitVec.getLsbD_of_ge w (8 + i) (by omega)]

/-- A zero-extended byte is shifted out by eight places. -/
theorem zext_ushiftRight_eight (b : Byte) : (b.setWidth 32) >>> 8 = (0 : Word) := by
  apply BitVec.eq_of_getLsbD_eq
  intro i _
  simp

/-- A word is its low byte XORed with its other bytes. -/
theorem low_byte_xor_high_bytes (w : Word) : (w.setWidth 8).setWidth 32 ^^^ ((w >>> 8) <<< 8) = w := by
  apply BitVec.eq_of_getLsbD_eq
  intro i hi
  by_cases h : i < 8
  · simp [h, hi]
  · simp [h, hi, Nat.add_sub_cancel' (not_lt.1 h)]

/-- The eight steps take the low byte through the table and shift the others (R70). -/
theorem crcBits_eight_eq_table (w poly : Word) : crcBits 8 w poly = crcTable poly (w.setWidth 8) ^^^ (w >>> 8) := by
  have hlow : crcBits 8 ((w.setWidth 8).setWidth 32) poly = crcTable poly (w.setWidth 8) :=
    congrArg (crcBits 8 · poly) BitVec.zero_xor.symm
  have hhigh : crcBits 8 ((w >>> 8) <<< 8) poly = w >>> 8 := by
    rw [crcBits_of_low_bits_false 8 (fun i hi => by simp [hi])]
    exact ushiftRight_shiftLeft_ushiftRight_eight w
  calc crcBits 8 w poly = crcBits 8 ((w.setWidth 8).setWidth 32 ^^^ ((w >>> 8) <<< 8)) poly := by
        rw [low_byte_xor_high_bytes]
    _ = crcTable poly (w.setWidth 8) ^^^ (w >>> 8) := by rw [crcBits_xor, hlow, hhigh]

theorem crcByteByTable_eq_crcByte (r : Word) (b : Byte) (poly : Word) : crcByteByTable r b poly = crcByte r b poly := by
  have hshift : (r ^^^ b.setWidth 32) >>> 8 = r >>> 8 := by
    rw [BitVec.ushiftRight_xor_distrib, zext_ushiftRight_eight]
    exact BitVec.xor_zero
  rw [crcByteByTable, crcByte, crcBits_eight_eq_table, hshift]

/-- An all-zero register absorbs a zero byte without change (R67). -/
theorem crcByte_zero_zero (poly : Word) : crcByte 0 0 poly = 0 := crcBits_zero 8 poly

theorem crcByte_eq_crcByte_xor_zero (r : Word) (b : Byte) (poly : Word) :
    crcByte r b poly = crcByte (r ^^^ b.setWidth 32) 0 poly :=
  congrArg (crcBits 8 · poly) BitVec.xor_zero.symm

/-! The block (R68) -/

theorem crcBlock_eq_foldl (data : List Byte) (poly init : Word) :
    crcBlock data poly init = data.foldl (fun r b => crcByte r b poly) init := by
  induction data generalizing init with
  | nil => rfl
  | cons b bs ih => exact ih _

/-! What the engine's operations answer: the value in `CRC_REG`, and nothing else (R65) -/

theorem exec_crcBit (r poly : Word) (s : State) : exec (.crcBit r poly) s = .next (s.setCrcReg (crcBit r poly)) := rfl

theorem exec_crcByte (r : Word) (b : Byte) (poly : Word) (s : State) :
    exec (.crcByte r b poly) s = .next (s.setCrcReg (crcByte r b poly)) := rfl

theorem exec_crcBlock (data : List Byte) (poly init : Word) (s : State) :
    exec (.crcBlock data poly init) s = .next (s.setCrcReg (crcBlock data poly init)) := rfl

/-! The obligations -/

/-- Settles O14, by the linearity of the eight steps over the low byte and the others. -/
theorem tableFormEqualsBitForm : Obligations.TableFormEqualsBitForm :=
  ⟨crcByteByTable_eq_crcByte, fun _ _ => rfl, by decide +kernel⟩

/-- Settles O11: the operation's value is `crcBit`, read bit by bit, and `crcBitInverse` is its inverse. -/
theorem crcBitShiftsAndXors : Obligations.CrcBitShiftsAndXors := by
  refine ⟨fun r poly s => ⟨crcBit r poly, exec_crcBit r poly s, ?_⟩, fun poly => ?_, fun r poly hpoly => ?_,
    by decide⟩
  · exact ⟨fun h => crcBit_of_bit_zero_true h poly, fun h => crcBit_of_bit_zero_false h poly,
      crcBit_getLsbD_top r poly, fun i _ => crcBit_getLsbD r poly i⟩
  · exact ⟨crcBit_zero poly, crcBit_one poly⟩
  · exact ⟨crcBit_getLsbD_top_eq_bit_zero hpoly r, crcBitInverse_crcBit hpoly r, crcBit_crcBitInverse hpoly r⟩

/-- Settles O12: the eight steps are those of `crcBits 8`, which is a bijection. -/
theorem crcByteAbsorbsOneByte : Obligations.CrcByteAbsorbsOneByte := by
  refine ⟨fun r b poly s => ?_, crcByte_zero_zero, crcByte_eq_crcByte_xor_zero, fun _ => crcByte_bijective,
    fun _ => crcByte_injective_byte, by decide +kernel⟩
  exact ⟨_, _, _, _, _, _, _, _, _, rfl, rfl, rfl, rfl, rfl, rfl, rfl, rfl, rfl, rfl, exec_crcByte r b poly s⟩

/-- Settles O13, by induction on the bytes. -/
theorem crcBlockFoldsTheBytes : Obligations.CrcBlockFoldsTheBytes := by
  refine ⟨fun data poly init s => ?_, fun _ _ => rfl, fun a b poly init => crcBlock_append a b poly init,
    by decide +kernel⟩
  rw [exec_crcBlock, crcBlock_eq_foldl]
  rfl

/-- Settles O15: the registers differ after the byte, and the later bytes keep them apart. -/
theorem oneByteChangesTheChecksum : Obligations.OneByteChangesTheChecksum := by
  have hpoly : Config.crcPoly.getLsbD 31 = true := by decide
  intro before later b b' init hne h
  rw [crcBlock_append, crcBlock_append] at h
  have hbyte := crcBlock_injective_init hpoly later h
  exact hne (crcByte_injective_byte hpoly _ hbyte)

/-- Settles O16: the engine evaluated on the five inputs. -/
theorem engineCheckValues : Obligations.EngineCheckValues := by
  unfold Obligations.EngineCheckValues
  decide +kernel

end Sys2Proof.Machine
end

section
/-!
PROOFS. The chunk record (`41_chunk_record.md`, O17 to O25): the shape of a computed checksum and that it tells tags
apart, and what each record operation answers, by the header's key and the payload's thirteen bytes. A tag is told apart
because its four bytes may enter the register all at once, before 32 bijective steps.
-/

namespace Sys2Proof.Machine

/-! The property bits (R81) -/

/-- Bit 5 of a byte is the bit of weight 0x20 (R49). -/
theorem propertyBit_iff (b : Byte) : propertyBit b = true ↔ b &&& 0x20 ≠ 0 := by
  revert b; decide

theorem exec_recProps (tag : Tag) (s : State) :
    exec (.recProps tag) s = .next (s.setResult (some (.props (propsOf tag)))) := rfl

/-- Settles O17: each of the four bits is `propertyBit` of its byte. -/
theorem propsAreBitFive : Obligations.PropsAreBitFive := by
  refine ⟨fun tag s => ⟨propsOf tag, exec_recProps tag s, ?_⟩, by decide⟩
  exact ⟨propertyBit_iff tag.t0, propertyBit_iff tag.t1, propertyBit_iff tag.t2, propertyBit_iff tag.t3⟩

/-! The final mask (R82, R83) -/

theorem computedChecksum_current (tag : Tag) (payload : List Byte) :
    computedChecksum Config.current tag payload =
      .wide ((rawChecksum tag payload).setWidth 40 ^^^ 0xFFFFFFFFFF) := rfl

theorem computedChecksum_of_ones32 {cfg : Config} (hmask : cfg.finalMask = .ones32) (tag : Tag) (payload : List Byte) :
    computedChecksum cfg tag payload = .narrow (rawChecksum tag payload ^^^ 0xFFFFFFFF) := by
  simp only [computedChecksum, maskChecksum, hmask, FinalMask.bits]

/-- A computed checksum is as wide as its mask (R5). -/
theorem computedChecksum_width (cfg : Config) (tag : Tag) (payload : List Byte) :
    (computedChecksum cfg tag payload).width = cfg.ccrcWidth := by
  unfold computedChecksum maskChecksum Config.ccrcWidth
  cases cfg.finalMask with
  | ones40 => rfl
  | ones32 => rfl

theorem ccrcWidth_eq (cfg : Config) : cfg.ccrcWidth = if cfg.finalMask = .ones40 then 40 else 32 := by
  unfold Config.ccrcWidth
  cases cfg.finalMask with
  | ones40 => rfl
  | ones32 => rfl

theorem execWith_recCcrc (cfg : Config) (tag : Tag) (payload : List Byte) (s : State) :
    execWith cfg (.recCcrc tag payload) s =
      .next (s.setSums (rawChecksum tag payload) (computedChecksum cfg tag payload)) := rfl

/-- The example of R82 and R84. -/
theorem computedChecksum_IEND :
    computedChecksum Config.current ⟨0x49, 0x45, 0x4E, 0x44⟩ [] = .wide 0xFFAE426082 := by decide +kernel

/-- Settles O18: the masked value under each mask, and its width. -/
theorem computedChecksumIsMasked : Obligations.ComputedChecksumIsMasked := by
  refine ⟨fun tag payload s => ?_, computedChecksum_IEND, fun cfg tag payload s hmask => ?_,
    fun cfg tag payload => ⟨computedChecksum_width cfg tag payload, ccrcWidth_eq cfg⟩⟩
  · rw [exec_eq, execWith_recCcrc, computedChecksum_current]
    rfl
  · rw [execWith_recCcrc, computedChecksum_of_ones32 hmask]
    rfl

/-- XOR with the 40-bit mask complements the word's 32 bits below eight ones (R83). -/
theorem zext_xor_ones40_toNat (w : Word) :
    (w.setWidth 40 ^^^ 0xFFFFFFFFFF).toNat = 0xFF00000000 + (w ^^^ 0xFFFFFFFF).toNat := by
  have h40 : w.setWidth 40 ^^^ 0xFFFFFFFFFF = ~~~ w.setWidth 40 := BitVec.xor_allOnes
  have h32 : w ^^^ 0xFFFFFFFF = ~~~ w := BitVec.xor_allOnes
  rw [h40, h32]
  bv_omega

theorem zext_xor_ones40_low (w : Word) : (w.setWidth 40 ^^^ 0xFFFFFFFFFF).setWidth 32 = w ^^^ 0xFFFFFFFF := by
  apply BitVec.eq_of_toNat_eq
  rw [BitVec.toNat_setWidth, zext_xor_ones40_toNat]
  omega

/-- Settles O20: the value as a number is at least 0xFF00000000, which no zero-extended word reaches. -/
theorem computedChecksumShape : Obligations.ComputedChecksumShape := by
  intro tag payload
  have hvalue := zext_xor_ones40_toNat (rawChecksum tag payload)
  refine ⟨_, computedChecksum_current tag payload, hvalue, by omega, zext_xor_ones40_low _, fun stored heq => ?_⟩
  have hstored : (stored.setWidth 40).toNat < 2 ^ 32 := by bv_omega
  rw [heq] at hstored
  omega

/-! The tag in the checksum (R82) -/

theorem crcBits_add (n m : Nat) (r poly : Word) : crcBits (n + m) r poly = crcBits m (crcBits n r poly) poly := by
  induction n generalizing r with
  | zero => rw [Nat.zero_add]; rfl
  | succ n ih => rw [Nat.succ_add]; exact ih _

/-- A byte shifted past `n` steps comes back down through them, so it may enter before them. -/
theorem crcByte_crcBits {n : Nat} (hn : n ≤ 24) (r : Word) (b : Byte) (poly : Word) :
    crcByte (crcBits n r poly) b poly = crcBits (n + 8) (r ^^^ (b.setWidth 32 <<< n)) poly := by
  have hbyte : crcBits n (b.setWidth 32 <<< n) poly = b.setWidth 32 := by
    rw [crcBits_of_low_bits_false n (fun i hi => by simp [hi])]
    apply BitVec.eq_of_getLsbD_eq
    intro i hi
    by_cases h8 : i < 8
    · simp [show n + i < 32 by omega, hi]
    · simp [BitVec.getLsbD_of_ge b i (by omega)]
  rw [crcBits_add, crcBits_xor, hbyte, crcByte]

/-- Four bytes, the first the least significant, as one word. -/
theorem be32_eq_xor_shifts (b0 b1 b2 b3 : Byte) :
    be32 b3 b2 b1 b0 =
      b0.setWidth 32 ^^^ b1.setWidth 32 <<< 8 ^^^ b2.setWidth 32 <<< 16 ^^^ b3.setWidth 32 <<< 24 := by
  rw [be32_eq_append]
  apply BitVec.eq_of_getLsbD_eq
  intro i hi
  simp only [BitVec.getLsbD_append, BitVec.getLsbD_xor, BitVec.getLsbD_shiftLeft, BitVec.getLsbD_setWidth]
  -- Bit `i` lies in one byte; every other term is shifted past it or ends below it.
  obtain h | h | h | h : i < 8 ∨ (8 ≤ i ∧ i < 16) ∨ (16 ≤ i ∧ i < 24) ∨ 24 ≤ i := by omega
  all_goals grind

/-- The engine over a tag is 32 steps from the tag XORed into the register, its first byte least significant. -/
theorem crcBlock_tagBytes (tag : Tag) (poly init : Word) :
    crcBlock tag.bytes poly init = crcBits 32 (init ^^^ be32 tag.t3 tag.t2 tag.t1 tag.t0) poly := by
  simp only [Tag.bytes, crcBlock]
  rw [crcByte.eq_def init, crcByte_crcBits (by omega), crcByte_crcBits (by omega), crcByte_crcBits (by omega),
    be32_eq_xor_shifts]
  simp only [BitVec.xor_assoc]

/-- The engine tells tags apart: the 32 steps are a bijection (R82). -/
theorem crcBlock_tagBytes_injective {poly : Word} (hpoly : poly.getLsbD 31 = true) (init : Word) :
    Function.Injective (fun tag : Tag => crcBlock tag.bytes poly init) := by
  rintro ⟨a0, a1, a2, a3⟩ ⟨b0, b1, b2, b3⟩ h
  simp only [crcBlock_tagBytes] at h
  have hword := (BitVec.xor_right_inj init).1 ((crcBits_bijective hpoly 32).injective h)
  obtain ⟨rfl, rfl, rfl, rfl⟩ := be32_inj.1 hword
  rfl

/-- The final mask loses nothing of the raw output (R83). -/
theorem computedChecksum_current_inj {tag tag' : Tag} {payload payload' : List Byte}
    (h : computedChecksum Config.current tag payload = computedChecksum Config.current tag' payload') :
    rawChecksum tag payload = rawChecksum tag' payload' := by
  rw [computedChecksum_current, computedChecksum_current, Checksum.wide.injEq] at h
  have hlow := congrArg (BitVec.setWidth 32) h
  rw [zext_xor_ones40_low, zext_xor_ones40_low] at hlow
  exact (BitVec.xor_left_inj _).1 hlow

/-- Settles O19: the registers differ after the tag, and the payload keeps them apart. -/
theorem differentTagsDifferInChecksum : Obligations.DifferentTagsDifferInChecksum := by
  have hpoly : Config.crcPoly.getLsbD 31 = true := by decide
  intro tag tag' payload hne h
  have hraw := computedChecksum_current_inj h
  rw [rawChecksum, rawChecksum, crcBlock_append, crcBlock_append] at hraw
  exact hne (crcBlock_tagBytes_injective hpoly _ (crcBlock_injective_init hpoly payload hraw))

/-! What the record operations answer (R84 to R87) -/

/-- The failure transition of an operation a chunk step calls (R119). -/
theorem raiseInChunk_eq_failedState (c : Condition) {s : State} (hs : s.state = .parsing) :
    raiseInChunk c s = failedState c s :=
  raiseInChunk_parsing c hs

theorem decodeIhdr_current_of_long {payload : List Byte} (h : 13 ≤ payload.length) :
    decodeIhdr Config.current payload = some (fieldsAt payload) := by
  rw [decodeIhdr_current, ihdrFields_eq h]

theorem decodeIhdr_current_of_short {payload : List Byte} (h : payload.length < 13) :
    decodeIhdr Config.current payload = none := by
  rw [decodeIhdr_current, ihdrFields_none h]

/-- Settles O21: the mismatch is the comparison of the stored checksum, zero-extended, with the computed one. -/
theorem baseRecordIsBuilt : Obligations.BaseRecordIsBuilt := by
  refine ⟨fun tag length payload checksum s => ?_, by decide, computedChecksum_IEND, by decide⟩
  exact ⟨_, _, computedChecksum_current tag payload, bne_iff_ne, rfl⟩

section
variable (tag : Tag) (length : Word) {payload : List Byte} (checksum : Word) (s : State)

/-- The header record has its mismatch set: no stored checksum equals the computed one (R83, R86). -/
theorem headerRecord_baseRecord_eq_headerOf (payload : List Byte) :
    headerRecord (baseRecord tag length payload checksum (computedChecksum Config.current tag payload))
      (fieldsAt payload) = headerOf tag length payload checksum := by
  simp only [headerRecord, baseRecord, headerOf, crcMismatch_current]

theorem recIhdr_current_of_long (h : 13 ≤ payload.length) :
    recIhdr Config.current tag length payload checksum s =
      (withChunkRegs s tag length payload checksum).setResult
        (some (.record (headerOf tag length payload checksum))) := by
  rw [recIhdr, decodeIhdr_current_of_long h]
  simp only [headerRecord_baseRecord_eq_headerOf]
  rfl

theorem recIhdr_current_of_short (h : payload.length < 13) (hs : s.state = .parsing) :
    recIhdr Config.current tag length payload checksum s =
      failedState .malformedHeaderChunk ((withChunkRegs s tag length payload checksum).setResult none) := by
  rw [recIhdr, decodeIhdr_current_of_short h]
  exact raiseInChunk_eq_failedState _ hs

theorem recDispatch_current_of_header (payload : List Byte) (hkey : tag.key = Config.keyIhdr) :
    recDispatch Config.current tag length payload checksum s =
      recIhdr Config.current tag length payload checksum s := by
  rw [recDispatch, lookupCtor_current, if_pos hkey]

theorem recDispatch_current_of_unknown (payload : List Byte) (hkey : tag.key ≠ Config.keyIhdr)
    (hs : s.state = .parsing) :
    recDispatch Config.current tag length payload checksum s =
      failedState .unknownChunkType ((s.setSlices tag length checksum).setResult none) := by
  rw [recDispatch, lookupCtor_current, if_neg hkey]
  exact raiseInChunk_eq_failedState _ hs

end

/-- Settles O22: thirteen bytes decode, and the record is the header's. -/
theorem headerRecordIsBuilt : Obligations.HeaderRecordIsBuilt :=
  fun tag length _ checksum s h => congrArg Host.Outcome.next (recIhdr_current_of_long tag length checksum s h)

/-- Settles O23: fewer than thirteen bytes do not decode, and the step is in `Parsing`. -/
theorem shortHeaderIsMalformed : Obligations.ShortHeaderIsMalformed :=
  fun tag length _ checksum s h hs =>
    congrArg Host.Outcome.next (recIhdr_current_of_short tag length checksum s h hs)

/-- Settles O24, by the payload's length. -/
theorem headerPayloadDecodes : Obligations.HeaderPayloadDecodes := by
  refine ⟨fun payload s h => congrArg Host.Outcome.next ?_, fun payload s h hs => congrArg Host.Outcome.next ?_⟩
  · rw [recIhdrDecode, decodeIhdr_current_of_long h]
    rfl
  · rw [recIhdrDecode, decodeIhdr_current_of_short h]
    exact raiseInChunk_eq_failedState _ hs

/-- Settles O25: a header key is answered by `REC.IHDR`, any other raises before a checksum is computed. -/
theorem dispatchByUpperCasedTag : Obligations.DispatchByUpperCasedTag := by
  refine ⟨fun tag length payload checksum s hkey h => congrArg Host.Outcome.next ?_,
    fun tag length payload checksum s hkey h hs => congrArg Host.Outcome.next ?_,
    fun tag length payload checksum s hkey hs => congrArg Host.Outcome.next ?_⟩
  · rw [recDispatch_current_of_header tag length checksum s payload hkey]
    exact recIhdr_current_of_long tag length checksum s h
  · rw [recDispatch_current_of_header tag length checksum s payload hkey]
    exact recIhdr_current_of_short tag length checksum s h hs
  · exact recDispatch_current_of_unknown tag length checksum s payload hkey hs

end Sys2Proof.Machine
end

section
/-!
PROOFS. The framer's invariants (`42_container_framer.md`, R102, R103): every effect there is keeps them, so every
operation and every step does, whatever the parameters.
-/

namespace Sys2Proof.Machine

/-! A state with a given architectural part: `Inv` and `RoundTrip` read no more of a state than that -/

/-- The reset state with this architectural part. -/
def Arch.toState (a : Arch) : State :=
  { State.reset with
    buf := a.buf
    bufLen := a.bufLen
    state := a.state
    cursor := a.cursor
    chunks := a.chunks
    chunkCount := a.chunkCount
    faultCode := a.faultCode
    faultOffset := a.faultOffset }

theorem inv_arch_iff {s : State} : Inv s.arch.toState ↔ Inv s := Iff.rfl

theorem roundTrip_arch_iff {s : State} : RoundTrip s.arch.toState ↔ RoundTrip s := Iff.rfl

/-! The invariant by the framer's state -/

section
variable {s : State}

theorem Inv.bufExact (h : Inv s) : BufExact s := h.1

theorem Inv.fresh (h : Inv s) (hs : s.state = .unparsed) : FreshInv s := by
  obtain ⟨-, hfresh, -⟩ := h
  exact hfresh hs

theorem Inv.active (h : Inv s) (hs : s.state = .parsing) : ActiveInv s := by
  obtain ⟨-, -, hactive, -⟩ := h
  exact hactive hs

theorem Inv.cursor_of_parsed (h : Inv s) (hs : s.state = .parsed) : ActiveInv s ∧ s.cursor = s.bufLen := by
  obtain ⟨-, -, -, hparsed, -⟩ := h
  exact hparsed hs

theorem inv_of_unparsed (hs : s.state = .unparsed) (hb : BufExact s) (h : FreshInv s) : Inv s := by
  simp only [Inv, hs]
  exact ⟨hb, fun _ => h, nofun, nofun, nofun⟩

theorem inv_of_parsing (hs : s.state = .parsing) (hb : BufExact s) (h : ActiveInv s) : Inv s := by
  simp only [Inv, hs]
  exact ⟨hb, nofun, fun _ => h, nofun, nofun⟩

theorem inv_of_parsed (hs : s.state = .parsed) (hb : BufExact s) (h : ActiveInv s) (hend : s.cursor = s.bufLen) :
    Inv s := by
  simp only [Inv, hs]
  exact ⟨hb, nofun, nofun, fun _ => ⟨h, hend⟩, nofun⟩

theorem inv_of_failed (hs : s.state = .failed) (hb : BufExact s) (h : FailedInv s) : Inv s := by
  simp only [Inv, hs]
  exact ⟨hb, nofun, nofun, nofun, fun _ => h⟩

/-- In the two states in which a condition can be raised the cursor is inside the buffer (R103). -/
theorem Inv.cursor_le (h : Inv s) (hs : s.state = .unparsed ∨ s.state = .parsing) : s.cursor ≤ s.bufLen := by
  obtain hs | hs := hs
  · obtain ⟨hcursor, -⟩ := h.fresh hs
    omega
  · obtain ⟨-, hcursor, -⟩ := h.active hs
    exact hcursor

/-- A failure transition meets the invariant of `Failed` (R119). -/
theorem inv_failedState (c : Condition) (h : Inv s) (hs : s.state = .unparsed ∨ s.state = .parsing) :
    Inv (failedState c s) :=
  inv_of_failed rfl h.bufExact ⟨rfl, rfl, Option.some_ne_none c, rfl, h.cursor_le hs⟩

end

theorem chunkSum_concat (rs : List Record) (r : Record) :
    chunkSum (rs ++ [r]) = chunkSum rs + (12 + r.length.toNat) := by
  simp [chunkSum, Config.chunkOverhead]

/-- Every effect keeps the invariant (R103). -/
theorem Effect.inv {cfg : Config} {s : State} {a : Arch} (h : Effect cfg s a) (hi : Inv s) : Inv a.toState := by
  have hb := hi.bufExact
  cases h with
  | nothing => exact hi
  | badSignature hs => exact inv_arch_iff.mpr (inv_failedState .badSignature hi (.inl hs))
  | chunkFails c hs hc => exact inv_arch_iff.mpr (inv_failedState c hi (.inr hs))
  | begins hs h8 hr =>
    obtain ⟨-, hchunks, hcount, hcode, hoffset⟩ := hi.fresh hs
    refine inv_of_parsing rfl hb ⟨le_refl 8, h8, ?_, ?_, hcode, hoffset⟩
    · exact hcount.trans (congrArg List.length hchunks).symm
    · exact (congrArg (8 + chunkSum ·) hchunks).symm
  | appends r hr =>
    obtain ⟨hs, hle, -⟩ := hr
    obtain ⟨h8, hcursor, hcount, hsum, hcode, hoffset⟩ := hi.active hs
    have hbound : s.cursor + 12 + r.length.toNat ≤ s.bufLen := by
      unfold State.rem at hle
      omega
    refine inv_of_parsing hs hb ⟨?_, hbound, ?_, ?_, hcode, hoffset⟩
    · exact h8.trans (by simp only [Arch.toState]; omega)
    · simp [Arch.toState, hcount]
    · simp only [Arch.toState, chunkSum_concat, Config.chunkOverhead]
      omega
  | ends hs hr =>
    have hle := hi.cursor_le (.inr hs)
    unfold State.rem at hr
    have hend : s.cursor = s.bufLen := by omega
    exact inv_of_parsed rfl hb (hi.active hs) hend
  | resets =>
    obtain ⟨hreset, -⟩ := invariantsHoldAtReset
    exact hreset
  | loads bytes hs => exact inv_of_unparsed hs (s.loadBytes_bufExact bytes) (hi.fresh hs)

/-- Settles O60: a step is an effect, and every effect keeps the invariant. -/
theorem everyParameterSettingKeepsTheInvariant : Obligations.EveryParameterSettingKeepsTheInvariant :=
  fun _ _ _ hi hstep => inv_arch_iff.mp ((stepWith_effect hstep).inv hi)

/-- Settles O49: this hardware's steps are those of the current parameters. -/
theorem stepKeepsTheInvariant : Obligations.StepKeepsTheInvariant :=
  fun _ _ hi hstep => inv_arch_iff.mp ((step_effect hstep).inv hi)

/-! The round trip (R102): what an accepted signature or chunk consumed is what its record encodes to -/

/-- An accepted signature is the buffer's first eight bytes (R97). -/
theorem take_eq_sig_of_readSig {s : State} (hb : BufExact s) (hr : readSig s = some Config.sig) :
    s.buf.bytes.take 8 = Config.sig := by
  rw [readSig, memRead_eq hb] at hr
  split at hr
  · exact Option.some.inj hr
  · cases hr

/-- The bytes at `CURSOR` of an accepted chunk are the encoding of its record (R99, R102). -/
theorem Accepts.remaining_eq {cfg : Config} {s : State} {r : Record} (h : Accepts cfg s r) (hb : BufExact s) :
    ∃ rest, s.remaining = encodeRecord r ++ rest := by
  obtain ⟨-, hle, hlength, htag, -, hpayload, hstored, -⟩ := h
  obtain ⟨length, tag, later, hhead⟩ := exists_head hb (by omega)
  obtain ⟨hlength', htag', -⟩ := readHead hb hhead
  obtain rfl : r.length = length := Option.some.inj (hlength.symm.trans hlength')
  obtain rfl : r.typeTag = tag := Option.some.inj (htag.symm.trans htag')
  obtain ⟨payload, checksum, rest, hlen, rfl⟩ := exists_tail hb hhead hle
  obtain ⟨hpayload', hstored'⟩ := readTail hb hlen hhead
  obtain rfl : r.payload = payload := Option.some.inj (hpayload.symm.trans hpayload')
  obtain rfl : r.storedChecksum = checksum := Option.some.inj (hstored.symm.trans hstored')
  exact ⟨rest, by simp only [hhead, encodeRecord, encodeChunk, List.append_assoc]⟩

/-- An accepted record's encoding is `12 + length` bytes (R53). -/
theorem Accepts.encodeRecord_length {cfg : Config} {s : State} {r : Record} (h : Accepts cfg s r) :
    (encodeRecord r).length = 12 + r.length.toNat := by
  obtain ⟨-, -, -, -, -, hpayload, -⟩ := h
  rw [encodeRecord, encodeChunk_length, memRead_length hpayload]

/-- What is consumed after an accepted chunk: what was before, and the record's encoding. -/
theorem Accepts.take_eq {cfg : Config} {s : State} {r : Record} (h : Accepts cfg s r) (hb : BufExact s) :
    s.buf.bytes.take (s.cursor + 12 + r.length.toNat) = s.buf.bytes.take s.cursor ++ encodeRecord r := by
  obtain ⟨rest, hrest⟩ := h.remaining_eq hb
  rw [Nat.add_assoc, List.take_add, ← h.encodeRecord_length]
  exact congrArg _ (by rw [← State.remaining, hrest, List.take_left])

/-- Every effect keeps the round trip so far (R102). -/
theorem Effect.roundTrip {cfg : Config} {s : State} {a : Arch} (h : Effect cfg s a) (hi : Inv s) (hr : RoundTrip s) :
    RoundTrip a.toState := by
  cases h with
  | nothing => exact hr
  | badSignature hs => exact nofun
  | chunkFails c hs hc => exact nofun
  | begins hs h8 hsig =>
    obtain ⟨-, hchunks, -⟩ := hi.fresh hs
    intro _
    simp only [Arch.toState, State.arch, hchunks, List.flatMap_nil, List.append_nil]
    exact take_eq_sig_of_readSig hi.bufExact hsig
  | appends r hacc =>
    have ⟨hs, _⟩ := hacc
    have hbefore := hr (.inl hs)
    intro _
    simp only [Arch.toState, State.arch, List.flatMap_append, List.flatMap_singleton]
    rw [← List.append_assoc, ← hbefore]
    exact hacc.take_eq hi.bufExact
  | ends hs hrem => exact fun _ => hr (.inl hs)
  | resets => exact nofun
  | loads bytes hs =>
    intro hactive
    obtain hp | hp : s.state = .parsing ∨ s.state = .parsed := hactive <;> simp [hs] at hp

/-- Settles O52: a step is an effect, and every effect keeps the round trip. -/
theorem stepKeepsTheRoundTrip : Obligations.StepKeepsTheRoundTrip :=
  fun _ _ hi hr hstep => roundTrip_arch_iff.mp ((step_effect hstep).roundTrip hi hr)

end Sys2Proof.Machine
end

section
/-!
PROOFS. The framer's operations one by one (R97, R99, R100): the signature check, the chunk step on the bytes at
`CURSOR`, termination, and the transitions of `STATE` (R95).
-/

namespace Sys2Proof.Machine

/-! The signature check (R97) -/

section
variable {s : State}

/-- Over an exact buffer the signature check is one comparison: a buffer shorter than the signature differs from it. -/
theorem sigCheck_eq (hs : s.state = .unparsed) (hb : BufExact s) :
    sigCheck s =
      if s.buf.bytes.take 8 = Config.sig then .next { s with cursor := 8, state := .parsing }
      else .next (failedState .badSignature s) := by
  have hread := memRead_eq hb 0 Config.sigLen
  rw [sigCheck, if_pos hs]
  by_cases hlen : s.bufLen < Config.sigLen
  · have hne : s.buf.bytes.take 8 ≠ Config.sig := by
      intro heq
      have hlength := congrArg List.length heq
      rw [List.length_take, hb.length] at hlength
      simp only [Config.sigLen, Config.sig, List.length_cons, List.length_nil] at hlen hlength
      omega
    rw [if_pos hlen, if_neg hne]
    rfl
  · rw [if_pos (by omega)] at hread
    rw [if_neg hlen, readSig, hread]
    rfl

/-- Settles O29: HOST.START is the signature check, which compares the first eight bytes. -/
theorem signatureDecidesTheParse : Obligations.SignatureDecidesTheParse := by
  intro s hs hb
  have hstart := execHostStart_eq_sigCheck s
  refine ⟨fun heq => ?_, fun hne => ?_⟩
  · have hsig := (sigCheck_eq hs hb).trans (if_pos heq)
    exact ⟨hsig, hstart.trans hsig⟩
  · have hsig := (sigCheck_eq hs hb).trans (if_neg hne)
    refine ⟨hsig, hstart.trans hsig, fun hi => ?_⟩
    obtain ⟨hcursor, -⟩ := hi.fresh hs
    exact hcursor

end

/-! Termination (R100) -/

theorem exec_frmTerm_of_end {s : State} (hs : s.state = .parsing) (hrem : s.rem = 0) :
    exec .frmTerm s = .next { s with state := .parsed } :=
  congrArg Host.Outcome.next (if_pos ⟨hs, hrem⟩)

theorem step_of_host_nil {s : State} (hhost : s.host = []) : step s = blockStep s := by
  rw [step, hhost]

theorem step_of_end {s : State} (hhost : s.host = []) (hs : s.state = .parsing) (hrem : s.rem = 0) :
    step s = .next { s with state := .parsed } := by
  have hop : nextOp s = some .frmTerm := by simp only [nextOp, hs, if_pos hrem]
  rw [step_of_host_nil hhost, blockStep, hop]
  exact exec_frmTerm_of_end hs hrem

theorem step_eq_frmChunk {s : State} (hhost : s.host = []) (hs : s.state = .parsing) (hrem : 0 < s.rem) :
    step s = exec .frmChunk s := by
  have hop : nextOp s = some .frmChunk := by simp only [nextOp, hs, if_neg hrem.ne']
  rw [step_of_host_nil hhost, blockStep, hop]

/-- Settles O34: the termination's two tests hold; with the cursor inside the buffer no bytes left is its end; and the
bare signature is accepted with nothing after it. -/
theorem terminationEndsTheParse : Obligations.TerminationEndsTheParse := by
  refine ⟨fun s hs hrem => exec_frmTerm_of_end hs hrem, fun s hi hs hrem => ?_, fun s hs hbuf hlen hhost => ?_⟩
  · obtain ⟨-, hcursor, -, -, hcode, -⟩ := hi.active hs
    unfold State.rem at hrem
    exact ⟨by omega, hcode⟩
  · have hb : BufExact s := by
      rw [BufExact, hbuf, hlen]
      exact Memory.ofBytes_fst Config.sig
    have hbytes : s.buf.bytes.take 8 = Config.sig := by
      rw [hbuf, Memory.bytes_ofBytes]
      rfl
    have hstart : exec .hostStart s = .next { s with cursor := 8, state := .parsing } := by
      obtain ⟨haccepts, -⟩ := signatureDecidesTheParse s hs hb
      exact (haccepts hbytes).2
    have hrem : State.rem { s with cursor := 8, state := .parsing } = 0 := by
      simp only [State.rem, hlen]
    exact ⟨_, hstart, hrem, step_of_end (s := { s with cursor := 8, state := .parsing }) hhost rfl hrem⟩

/-! The chunk step on the bytes at `CURSOR` (R99) -/

/-- This hardware's `MAX_CHUNKS` is unbounded (R14). -/
theorem not_full_current (count : Nat) : ¬ Config.current.full count = true := Bool.false_ne_true

section
variable {cfg : Config} {s : State} {tag : Tag} {length checksum : Word} {later payload rest : List Byte}

/-- Fewer than 12 bytes are no chunk (R99 (a), R121). -/
theorem frmChunk_of_few (hs : s.state = .parsing) (hpos : 0 < s.rem) (h12 : s.rem < 12) :
    frmChunk Config.current s = .next (failedState .truncatedChunk s) := by
  rw [frmChunk, if_pos ⟨hs, hpos⟩, if_neg (not_full_current _), if_pos (show s.rem < Config.chunkOverhead from h12)]
  rfl

/-- With 12 bytes or more the step reads the length and the tag, and goes on with them (R99 (a), (b)). -/
theorem frmChunk_eq_chunkBody (hs : s.state = .parsing) (hb : BufExact s) (h12 : 12 ≤ s.rem)
    (hhead : s.remaining = be32Bytes length ++ tag.bytes ++ later) :
    frmChunk Config.current s = chunkBody Config.current length tag (s.setHead length tag) := by
  have hpos : 0 < s.rem := by omega
  obtain ⟨hlength, htag, -⟩ := readHead hb hhead
  rw [frmChunk, if_pos ⟨hs, hpos⟩, if_neg (not_full_current _),
    if_neg (show ¬ s.rem < Config.chunkOverhead from Nat.not_lt.mpr h12),
    hlength, htag]

theorem tagInvalid_of_invalid (hs : s.state = .parsing) (hvalid : tagValid cfg.tagCharset tag = false) :
    tagInvalid cfg tag s = failedState .invalidTypeTag (s.setTag tag) := by
  rw [tagInvalid, hvalid, if_neg Bool.false_ne_true]
  exact raiseInChunk_eq_failedState _ hs

/-- An invalid tag is raised before the length is looked at (R99 (b), R124). -/
theorem chunkBody_of_invalid (hs : s.state = .parsing) (hvalid : tagValid cfg.tagCharset tag = false) :
    chunkBody cfg length tag (s.setHead length tag) = .next (failedState .invalidTypeTag (s.setHead length tag)) := by
  rw [chunkBody, hvalid, if_neg Bool.false_ne_true]
  exact congrArg Host.Outcome.next (tagInvalid_of_invalid (s := s.setHead length tag) hs hvalid)

/-- Fewer bytes than the chunk's length says are `TruncatedChunk` (R99 (c)). -/
theorem chunkBody_of_short (hvalid : tagValid cfg.tagCharset tag = true) (hshort : s.rem < 12 + length.toNat) :
    chunkBody cfg length tag (s.setHead length tag) = .next (failedState .truncatedChunk (s.setHead length tag)) := by
  rw [chunkBody, if_pos hvalid]
  exact if_pos hshort

/-- A complete chunk is dispatched on its tag (R99 (d), (e)). -/
theorem chunkBody_of_complete (hb : BufExact s) (hvalid : tagValid cfg.tagCharset tag = true)
    (hlen : payload.length = length.toNat)
    (hrem : s.remaining = be32Bytes length ++ tag.bytes ++ (payload ++ be32Bytes checksum ++ rest)) :
    chunkBody cfg length tag (s.setHead length tag) =
      .next (acceptRecord (recDispatch cfg tag length payload checksum (s.setHead length tag))) := by
  have hlong : ¬ (s.setHead length tag).rem < Config.chunkOverhead + length.toNat := by
    obtain ⟨-, -, hbytes⟩ := readHead hb hrem
    simp only [List.length_append, be32Bytes_length, hlen] at hbytes
    simp only [State.setHead_rem, Config.chunkOverhead]
    omega
  obtain ⟨hpayload, hstored⟩ := readTail (s := s.setHead length tag) hb hlen hrem
  rw [chunkBody, if_pos hvalid, if_neg hlong, hpayload, hstored]

end

/-! What this hardware makes of a complete chunk (R85 to R87) -/

section
variable {s : State} {tag : Tag} {length checksum : Word} {payload : List Byte}

theorem acceptRecord_of_header (hkey : tag.key = Config.keyIhdr) (hlong : 13 ≤ payload.length) :
    acceptRecord (recDispatch Config.current tag length payload checksum s) =
      appendAdvance (headerOf tag length payload checksum)
        ((withChunkRegs s tag length payload checksum).setResult
          (some (.record (headerOf tag length payload checksum)))) := by
  rw [recDispatch_current_of_header tag length checksum s payload hkey,
    recIhdr_current_of_long tag length checksum s hlong]
  rfl

theorem acceptRecord_of_unknown (hs : s.state = .parsing) (hkey : tag.key ≠ Config.keyIhdr) :
    (acceptRecord (recDispatch Config.current tag length payload checksum s)).arch =
      (failedState .unknownChunkType s).arch := by
  rw [recDispatch_current_of_unknown tag length checksum s payload hkey hs]
  rfl

theorem acceptRecord_of_shortHeader (hs : s.state = .parsing) (hkey : tag.key = Config.keyIhdr)
    (hshort : payload.length < 13) :
    (acceptRecord (recDispatch Config.current tag length payload checksum s)).arch =
      (failedState .malformedHeaderChunk s).arch := by
  rw [recDispatch_current_of_header tag length checksum s payload hkey,
    recIhdr_current_of_short tag length checksum s hshort hs]
  rfl

end

/-- Settles O30: a header key is a valid tag, and the complete chunk is dispatched to the header's record. -/
theorem chunkStepAppendsTheRecord : Obligations.ChunkStepAppendsTheRecord := by
  rintro s tag length payload checksum hs hb ⟨hlen, rest, hrem⟩ hkey hlong
  have hhead : s.remaining = be32Bytes length ++ tag.bytes ++ (payload ++ be32Bytes checksum ++ rest) := by
    simp only [hrem, encodeChunk, List.append_assoc]
  have h12 : 12 ≤ s.rem := by
    rw [← remaining_length hb, hrem, List.length_append, encodeChunk_length]
    omega
  have hstep : exec .frmChunk s = .next
      (acceptRecord (recDispatch Config.current tag length payload checksum (s.setHead length tag))) :=
    (frmChunk_eq_chunkBody hs hb h12 hhead).trans (chunkBody_of_complete hb (tagValid_of_key hkey) hlen hhead)
  rw [hstep, acceptRecord_of_header hkey hlong]
  rfl

/-- A tag of this hardware is invalid when one of its bytes is no ASCII code (R57, R99). -/
theorem tagValid_current_eq_false_iff (tag : Tag) :
    tagValid Config.current.tagCharset tag = false ↔ ∃ b ∈ tag.bytes, 0x80 ≤ b.toNat := by
  have hbyte (b : Byte) : tagByteValid .ascii7 b = true ↔ ¬ 0x80 ≤ b.toNat := by
    simp only [tagByteValid, decide_eq_true_eq, BitVec.le_def]
    exact Nat.lt_succ_iff.symm.trans Nat.not_le.symm
  rw [← Bool.not_eq_true, tagValid_iff]
  simp only [Config.current, hbyte, not_forall, not_not, exists_prop]

/-- Settles O32, test by test in the order of R124. -/
theorem chunkConditionsInOrder : Obligations.ChunkConditionsInOrder := by
  refine fun s hs hb hpos => ⟨frmChunk_of_few hs hpos, fun length tag later h12 hhead => ?_⟩
  have hbody : exec .frmChunk s = chunkBody Config.current length tag (s.setHead length tag) :=
    frmChunk_eq_chunkBody hs hb h12 hhead
  rw [hbody]
  by_cases hbad : ∃ b ∈ tag.bytes, 0x80 ≤ b.toNat
  · refine ⟨_, chunkBody_of_invalid hs ((tagValid_current_eq_false_iff tag).mpr hbad), ?_⟩
    rw [if_pos hbad]
    rfl
  have hvalid : tagValid Config.current.tagCharset tag = true := by
    rwa [← tagValid_current_eq_false_iff, Bool.not_eq_false] at hbad
  by_cases hshort : s.rem < 12 + length.toNat
  · refine ⟨_, chunkBody_of_short hvalid hshort, ?_⟩
    rw [if_neg hbad, if_pos hshort]
    rfl
  obtain ⟨payload, checksum, rest, hlen, rfl⟩ := exists_tail hb hhead (Nat.le_of_not_lt hshort)
  refine ⟨_, chunkBody_of_complete hb hvalid hlen hhead, ?_⟩
  rw [if_neg hbad, if_neg hshort]
  by_cases hkey : tag.key = Config.keyIhdr
  · rw [if_neg (not_not.mpr hkey), ← hlen]
    by_cases hheader : payload.length < 13
    · rw [if_pos hheader]
      exact acceptRecord_of_shortHeader hs hkey hheader
    · rw [if_neg hheader, acceptRecord_of_header hkey (Nat.le_of_not_lt hheader), hlen]
      exact ⟨hs, rfl, Nat.add_assoc .., _, rfl, rfl, rfl⟩
  · rw [if_pos hkey]
    exact acceptRecord_of_unknown hs hkey

/-! Everything an enabled chunk step can do, for any parameters (R99, R124) -/

/-- The conditions a chunk step raises (R116, R124). -/
def chunkConditions : List Condition := [.truncatedChunk, .invalidTypeTag, .unknownChunkType, .malformedHeaderChunk]

/-- The state after an accepted chunk: its registers taken, its record returned, appended and passed (R99 (e), (f)). -/
def appendedState (cfg : Config) (s : State) (r : Record) : State :=
  { s with
    chunks := s.chunks ++ [r]
    chunkCount := s.chunkCount + 1
    cursor := s.cursor + 12 + r.length.toNat
    len := r.length
    tag := r.typeTag
    scrc := r.storedChecksum
    crcReg := rawChecksum r.typeTag r.payload
    ccrc := computedChecksum cfg r.typeTag r.payload
    result := some (.record r) }

section
variable (cfg : Config) (s : State) (r : Record)

@[simp] theorem appendedState_buf : (appendedState cfg s r).buf = s.buf := rfl
@[simp] theorem appendedState_bufLen : (appendedState cfg s r).bufLen = s.bufLen := rfl
@[simp] theorem appendedState_state : (appendedState cfg s r).state = s.state := rfl
@[simp] theorem appendedState_cursor : (appendedState cfg s r).cursor = s.cursor + 12 + r.length.toNat := rfl
@[simp] theorem appendedState_chunks : (appendedState cfg s r).chunks = s.chunks ++ [r] := rfl
@[simp] theorem appendedState_chunkCount : (appendedState cfg s r).chunkCount = s.chunkCount + 1 := rfl
@[simp] theorem appendedState_faultCode : (appendedState cfg s r).faultCode = s.faultCode := rfl
@[simp] theorem appendedState_faultOffset : (appendedState cfg s r).faultOffset = s.faultOffset := rfl
@[simp] theorem appendedState_readData : (appendedState cfg s r).readData = s.readData := rfl
@[simp] theorem appendedState_freeIndex : (appendedState cfg s r).freeIndex = s.freeIndex := rfl
@[simp] theorem appendedState_host : (appendedState cfg s r).host = s.host := rfl

theorem appendAdvance_recBase_setHead :
    appendAdvance r ((recBase cfg r.typeTag r.length r.payload r.storedChecksum
      (s.setHead r.length r.typeTag)).setResult (some (.record r))) = appendedState cfg s r := by
  rw [recBase_eq]
  rfl

end

/-- An enabled chunk step raises one of its conditions over changed working registers, or appends an accepted record. -/
theorem frmChunk_enabled_cases {cfg : Config} {s t : State} (hs : s.state = .parsing) (hpos : 0 < s.rem)
    (h : frmChunk cfg s = .next t) :
    (∃ c ∈ chunkConditions, ∃ s1, s1.arch = s.arch ∧ s1.host = s.host ∧ t = raise c s1) ∨
    ∃ r, Accepts cfg s r ∧ t = appendedState cfg s r := by
  obtain ⟨hnot, -⟩ | ⟨-, -, -, rfl⟩ | ⟨-, -, length, tag, hlength, htag, hrest⟩ := frmChunk_cases h
  · exact absurd ⟨hs, hpos⟩ hnot
  · exact .inl ⟨.truncatedChunk, by decide, s, rfl, rfl, rfl⟩
  obtain ⟨-, rfl⟩ | ⟨-, -, rfl⟩ | ⟨hvalid, hle, payload, checksum, hpayload, hstored, rfl⟩ := hrest
  · exact .inl ⟨.invalidTypeTag, by decide, s.setHead length tag, rfl, rfl, rfl⟩
  · exact .inl ⟨.truncatedChunk, by decide, s.setHead length tag, rfl, rfl, rfl⟩
  obtain ⟨r, hr, he⟩ | ⟨c, s1, hc, ha, hh, -, -, he⟩ :=
    acceptRecord_cases cfg tag length payload checksum (s := s.setHead length tag) hs
  · obtain ⟨rfl, rfl, rfl, rfl⟩ := makeChunk_ok hr
    exact .inr ⟨r, ⟨hs, hle, hlength, htag, hvalid, hpayload, hstored, hr⟩,
      he.trans (appendAdvance_recBase_setHead cfg s r)⟩
  · have hmem : c ∈ chunkConditions := by
      obtain rfl | rfl := makeChunk_error hc <;> decide
    exact .inl ⟨c, hmem, s1, ha, hh, he⟩

/-- Settles O33: a chunk step that raised is in `Failed`, so the step appended the record of an accepted chunk. -/
theorem chunkStepProgress : Obligations.ChunkStepProgress := by
  intro s t hs hpos h hparsing
  obtain ⟨c, -, s1, -, -, rfl⟩ | ⟨r, hr, rfl⟩ := frmChunk_enabled_cases hs hpos h
  · cases hparsing
  · obtain ⟨-, hle, -⟩ := hr
    unfold State.rem at hle hpos
    have hcursor := appendedState_cursor Config.current s r
    refine ⟨by omega, by omega, ?_⟩
    simp

/-! The transitions of `STATE` (R95), operation by operation -/

section
variable {cfg : Config} {s t : State}

theorem sigCheck_transition (h : sigCheck s = .next t) (hne : t.state ≠ s.state) :
    s.state = .unparsed ∧
      (t.state = .parsing ∧ 8 ≤ s.bufLen ∧ readSig s = some Config.sig ∧ t.cursor = 8 ∨
        t.state = .failed ∧ t.faultCode = some .badSignature) := by
  obtain ⟨-, rfl⟩ | ⟨hs, rfl⟩ | ⟨hs, h8, hsig, rfl⟩ := sigCheck_cases h
  · exact absurd rfl hne
  · exact ⟨hs, .inr ⟨rfl, rfl⟩⟩
  · exact ⟨hs, .inl ⟨rfl, h8, hsig, rfl⟩⟩

theorem frmChunk_transition (h : frmChunk cfg s = .next t) (hne : t.state ≠ s.state) :
    s.state = .parsing ∧ t.state = .failed ∧ 0 < s.rem ∧ t.faultCode ∈ chunkConditions.map some := by
  by_cases hen : s.state = .parsing ∧ 0 < s.rem
  · obtain ⟨hs, hpos⟩ := hen
    obtain ⟨c, hc, s1, -, -, rfl⟩ | ⟨r, -, rfl⟩ := frmChunk_enabled_cases hs hpos h
    · exact ⟨hs, rfl, hpos, List.mem_map_of_mem hc⟩
    · exact absurd (appendedState_state cfg s r) hne
  · rw [frmChunk, if_neg hen] at h
    cases h
    exact absurd rfl hne

theorem frmTerm_transition (hne : (frmTerm s).state ≠ s.state) :
    s.state = .parsing ∧ s.rem = 0 ∧ (frmTerm s).state = .parsed ∧ (frmTerm s).cursor = s.cursor := by
  by_cases hen : s.state = .parsing ∧ s.rem = 0
  · obtain ⟨hs, hrem⟩ := hen
    rw [frmTerm, if_pos ⟨hs, hrem⟩]
    exact ⟨hs, hrem, rfl, rfl⟩
  · rw [frmTerm, if_neg hen] at hne
    exact absurd rfl hne

/-- From `s` to `t` a chunk step's operation may have raised `c`, and `STATE` is otherwise kept. -/
def RaisesAtMost (s t : State) (P : Condition → Prop) : Prop :=
  t.state ≠ s.state → s.state = .parsing ∧ t.state = .failed ∧ ∃ c, P c ∧ t.faultCode = some c

theorem RaisesAtMost.of_eq {P : Condition → Prop} (h : t.state = s.state) : RaisesAtMost s t P :=
  fun hne => absurd h hne

theorem RaisesAtMost.of_raiseInChunk {P : Condition → Prop} {c : Condition} (hc : P c) {s1 : State}
    (h : s1.state = s.state) : RaisesAtMost s (raiseInChunk c s1) P := by
  by_cases hs : s1.state = .parsing
  · rw [raiseInChunk_parsing c hs]
    exact fun _ => ⟨h.symm.trans hs, rfl, c, hc, rfl⟩
  · rw [raiseInChunk_other c hs]
    exact .of_eq h

theorem tagInvalid_raisesAtMost (tag : Tag) (s : State) :
    RaisesAtMost s (tagInvalid cfg tag s) (· = .invalidTypeTag) := by
  unfold tagInvalid
  split
  · exact .of_eq rfl
  · exact .of_raiseInChunk (P := (· = _)) rfl rfl

theorem recIhdrDecode_raisesAtMost (payload : List Byte) (s : State) :
    RaisesAtMost s (recIhdrDecode cfg payload s) (· = .malformedHeaderChunk) := by
  unfold recIhdrDecode
  split
  · exact .of_eq rfl
  · exact .of_raiseInChunk (P := (· = _)) rfl rfl

theorem recIhdr_raisesAtMost (tag : Tag) (length : Word) (payload : List Byte) (checksum : Word) (s : State) :
    RaisesAtMost s (recIhdr cfg tag length payload checksum s) (· = .malformedHeaderChunk) := by
  unfold recIhdr
  split
  · exact .of_eq rfl
  · exact .of_raiseInChunk (P := (· = _)) rfl rfl

theorem recDispatch_raisesAtMost (tag : Tag) (length : Word) (payload : List Byte) (checksum : Word) (s : State) :
    RaisesAtMost s (recDispatch cfg tag length payload checksum s)
      (fun c => c = .malformedHeaderChunk ∨ c = .unknownChunkType) := by
  obtain ⟨r, -, he⟩ | ⟨c, s1, hc, ha, -, -, -, -, he⟩ := recDispatch_cases cfg tag length payload checksum s
  · rw [he]
    exact .of_eq rfl
  · rw [he]
    exact .of_raiseInChunk (makeChunk_error hc) (congrArg Arch.state ha)

end

/-- Settles O36, operation by operation. -/
theorem onlyTheTablesTransitions : Obligations.OnlyTheTablesTransitions := by
  intro i s t h hne
  cases i with
  | hostReset =>
    cases h
    exact .inl ⟨rfl, rfl⟩
  | frmSigchk => exact .inr (.inl ⟨.inl rfl, sigCheck_transition h hne⟩)
  | hostStart =>
    exact .inr (.inl ⟨.inr rfl, sigCheck_transition ((execHostStart_eq_sigCheck s).symm.trans h) hne⟩)
  | frmChunk =>
    obtain ⟨hs, ht, hpos, hcode⟩ := frmChunk_transition h hne
    exact .inr (.inr (.inl ⟨hs, ht, .inl ⟨rfl, hpos, hcode⟩⟩))
  | tagInvalid tag =>
    cases h
    obtain ⟨hs, ht, c, rfl, hcode⟩ := tagInvalid_raisesAtMost tag s hne
    exact .inr (.inr (.inl ⟨hs, ht, .inr (.inl ⟨⟨tag, rfl⟩, hcode⟩)⟩))
  | recDispatch tag length payload checksum =>
    cases h
    obtain ⟨hs, ht, c, hc, hcode⟩ := recDispatch_raisesAtMost tag length payload checksum s hne
    have hmem : some c ∈ [some Condition.unknownChunkType, some .malformedHeaderChunk] := by
      obtain rfl | rfl := hc <;> decide
    exact .inr (.inr (.inl ⟨hs, ht, .inr (.inr (.inl ⟨⟨tag, length, payload, checksum, rfl⟩, hcode ▸ hmem⟩))⟩))
  | recIhdr tag length payload checksum =>
    cases h
    obtain ⟨hs, ht, c, rfl, hcode⟩ := recIhdr_raisesAtMost tag length payload checksum s hne
    exact .inr (.inr (.inl ⟨hs, ht, .inr (.inr (.inr ⟨.inl ⟨tag, length, payload, checksum, rfl⟩, hcode⟩))⟩))
  | recIhdrDecode payload =>
    cases h
    obtain ⟨hs, ht, c, rfl, hcode⟩ := recIhdrDecode_raisesAtMost payload s hne
    exact .inr (.inr (.inl ⟨hs, ht, .inr (.inr (.inr ⟨.inr ⟨payload, rfl⟩, hcode⟩))⟩))
  | frmTerm =>
    cases h
    exact .inr (.inr (.inr ⟨rfl, frmTerm_transition hne⟩))
  | hostLoad bytes =>
    obtain ⟨-, rfl⟩ | ⟨-, rfl⟩ := loadBuffer_cases h
    · exact absurd rfl hne
    · exact absurd rfl hne
  | hostRead sel =>
    cases h
    exact absurd (congrArg Arch.state (readValue_arch sel s)) hne
  | recBase tag length payload checksum => cases h; exact absurd rfl hne
  | recProps tag => cases h; exact absurd rfl hne
  | recCcrc tag payload => cases h; exact absurd rfl hne
  | crcBit r poly => cases h; exact absurd rfl hne
  | crcByte r b poly => cases h; exact absurd rfl hne
  | crcBlock data poly init => cases h; exact absurd rfl hne

/-! The decoder and the step (R57, R96) -/

/-- What is decoded from a chunk is at least as long as a chunk without payload (R59 (f)). -/
theorem length_of_decodeChunk {cfg : Config} {bytes rest : List Byte} {i : Instr}
    (h : decodeChunk cfg bytes = .op i rest) : 12 ≤ bytes.length := by
  unfold decodeChunk at h
  split at h
  · cases h
  · next hlen => exact Nat.le_of_not_lt hlen

/-- In `Parsing` an operation decoded from a length and a tag is decoded from 12 bytes or more. -/
theorem rem_of_decode {cfg : Config} {s : State} {len : Word} {tag : Tag} {later rest : List Byte} {i : Instr}
    (hb : BufExact s) (hhead : s.remaining = be32Bytes len ++ tag.bytes ++ later)
    (h : decode cfg .parsing s.remaining = .op i rest) : 12 ≤ s.rem := by
  rw [hhead] at h
  have hlen : 12 ≤ (be32Bytes len ++ tag.bytes ++ later).length := length_of_decodeChunk h
  rwa [← hhead, remaining_length hb] at hlen

theorem be32Bytes_injective : Function.Injective be32Bytes := by
  intro v w h
  have hword := congrArg be32List h
  rwa [be32List_be32Bytes, be32List_be32Bytes, Option.some.injEq] at hword

theorem classify_eq_invalid_iff (cfg : Config) (tag : Tag) :
    classify cfg tag = .invalid ↔ tagValid cfg.tagCharset tag = false := by
  unfold classify
  split
  · next hvalid => split <;> simp [hvalid]
  · next hvalid => simp [hvalid]

theorem tagValid_of_classify {cfg : Config} {tag : Tag} (h : classify cfg tag ≠ .invalid) :
    tagValid cfg.tagCharset tag = true := by
  rwa [ne_eq, classify_eq_invalid_iff, Bool.not_eq_false] at h

section
variable (tag : Tag) (length : Word) (payload : List Byte) (checksum : Word) (s : State)

/-- Dispatch writes `LEN` and `TAG` itself, so it does not matter what they held (R80). -/
theorem recDispatch_setHead (cfg : Config) :
    recDispatch cfg tag length payload checksum (s.setHead length tag) =
      recDispatch cfg tag length payload checksum { s with len := length } := by
  unfold recDispatch recIhdr
  split
  · split <;> rfl
  · split <;> rfl

/-- In `Parsing` dispatch returns a record and stays there, or returns none (R85). -/
theorem recDispatch_result (cfg : Config) {s : State} (hs : s.state = .parsing) :
    (∃ r, (recDispatch cfg tag length payload checksum s).result = some (.record r) ∧
      (recDispatch cfg tag length payload checksum s).state = .parsing) ∨
    (recDispatch cfg tag length payload checksum s).result = none := by
  obtain ⟨r, -, he⟩ | ⟨c, s1, -, ha, -, -, -, hnone, he⟩ := recDispatch_cases cfg tag length payload checksum s
  · rw [he]
    exact .inl ⟨r, rfl, hs⟩
  · rw [he, raiseInChunk_parsing c ((congrArg Arch.state ha).trans hs)]
    exact .inr hnone

/-- The row a tag selects does what dispatch does (R57, R85, R86). -/
theorem exec_decodeTag {tag : Tag} (hc : classify Config.current tag ≠ .invalid) :
    exec (decodeTag Config.current tag length payload checksum) s =
      .next (recDispatch Config.current tag length payload checksum s) := by
  have hvalid := tagValid_of_classify hc
  by_cases hkey : tag.key = Config.keyIhdr
  · have hknown : classify Config.current tag = .known .header := by
      rw [classify_current, if_pos hvalid, if_pos hkey]
    rw [decodeTag_of_known hknown, recDispatch_current_of_header tag length checksum s payload hkey]
    rfl
  · have hunknown : classify Config.current tag = .unknown := by
      rw [classify_current, if_pos hvalid, if_neg hkey]
    rw [decodeTag_of_unknown hunknown]
    rfl

end

/-- No row of format CHUNK is the termination. -/
theorem decodeTag_ne_frmTerm (cfg : Config) (tag : Tag) (length : Word) (payload : List Byte) (checksum : Word) :
    decodeTag cfg tag length payload checksum ≠ .frmTerm := by
  unfold decodeTag
  split <;> simp

/-- Settles O46: by what the bytes at `CURSOR` decode to, the end, an invalid tag, or a complete chunk. -/
theorem stepRunsTheDecodedElement : Obligations.StepRunsTheDecodedElement := by
  intro s i length later rest hhost hs hb hdec
  obtain ⟨hf, -⟩ | ⟨-, rfl, hnil, -⟩ | ⟨-, len, tag, after, hhead, hbody⟩ := decode_cases hdec
  · cases hf
  · have hrem : s.rem = 0 := by rw [← remaining_length hb, hnil, List.length_nil]
    exact ⟨fun _ => (step_of_end hhost hs hrem).trans (exec_frmTerm_of_end hs hrem).symm, fun hne => absurd rfl hne⟩
  have h12 := rem_of_decode hb hhead hdec
  have hstep : step s = chunkBody Config.current len tag (s.setHead len tag) :=
    (step_eq_frmChunk hhost hs (by omega)).trans (frmChunk_eq_chunkBody hs hb h12 hhead)
  have hsame (hlater : s.remaining = be32Bytes length ++ later) : len = length := by
    rw [hhead, List.append_assoc] at hlater
    exact be32Bytes_injective (List.append_inj_left hlater rfl)
  obtain ⟨hc, rfl, -⟩ | ⟨hc, payload, checksum, hlen, rfl, rfl⟩ := decodeBody_cases hbody
  · refine ⟨nofun, fun _ hlater => ?_⟩
    obtain rfl := hsame hlater
    have hvalid := (classify_eq_invalid_iff _ tag).mp hc
    refine ⟨failedState .invalidTypeTag (s.setHead len tag),
      congrArg Host.Outcome.next (tagInvalid_of_invalid (s := { s with len := len }) hs hvalid), ?_⟩
    rw [hstep, chunkBody_of_invalid hs hvalid]
    split
    · next hparsing => cases hparsing
    · rfl
  · refine ⟨fun hterm => (decodeTag_ne_frmTerm _ _ _ _ _ hterm).elim, fun _ hlater => ?_⟩
    obtain rfl := hsame hlater
    refine ⟨_, exec_decodeTag len payload checksum { s with len := len } hc, ?_⟩
    rw [hstep, chunkBody_of_complete hb (tagValid_of_classify hc) hlen hhead, recDispatch_setHead, acceptRecord]
    obtain ⟨r, hresult, hstate⟩ | hresult :=
      recDispatch_result tag len payload checksum Config.current (s := { s with len := len }) hs
    · rw [hresult, hstate]
    · rw [hresult]

end Sys2Proof.Machine
end

section
/-!
PROOFS. Runs of the framer (R102, R104): what a step does when the host does nothing, the bound on a parse, and the two
directions of the round trip of a whole run.
-/

namespace Sys2Proof.Machine

/-! Runs -/

section
variable {s t u : State} {k : Nat}

theorem after_succ_of_step (h : step s = .next u) : after (k + 1) s = after k u := by
  rw [after, h]

theorem step_of_after_succ (h : after (k + 1) s = some t) : ∃ u, step s = .next u ∧ after k u = some t := by
  rw [after] at h
  split at h
  · next u hu => exact ⟨u, hu, h⟩
  · cases h
  · cases h

/-- What every step keeps holds at the end of a run. -/
theorem after_induction {P : State → Prop} (hstep : ∀ s t, P s → step s = .next t → P t) (hs : P s)
    (h : after k s = some t) : P t := by
  induction k generalizing s with
  | zero => cases h; exact hs
  | succ k ih =>
    obtain ⟨u, hu, hafter⟩ := step_of_after_succ h
    exact ih (hstep s u hs hu) hafter

/-! The block left alone: everything a step can do when no host event is to come (R96) -/

theorem step_of_waiting (hhost : s.host = []) (hs : s.state ≠ .parsing) : step s = .next s := by
  have hop : nextOp s = none := by
    unfold nextOp
    split
    · next hp => exact absurd hp hs
    · rfl
    · rfl
    · rfl
  rw [step_of_host_nil hhost, blockStep, hop]

theorem step_quiet_cases (hhost : s.host = []) (h : step s = .next t) :
    (s.state ≠ .parsing ∧ t = s) ∨
    (s.state = .parsing ∧ t = { s with state := .parsed }) ∨
    (s.state = .parsing ∧ ∃ c s1, s1.arch = s.arch ∧ s1.host = s.host ∧ t = raise c s1) ∨
    (s.state = .parsing ∧ ∃ r, Accepts Config.current s r ∧ t = appendedState Config.current s r) := by
  by_cases hs : s.state = .parsing
  · obtain hrem | hpos := Nat.eq_zero_or_pos s.rem
    · rw [step_of_end hhost hs hrem] at h
      cases h
      exact .inr (.inl ⟨hs, rfl⟩)
    · rw [step_eq_frmChunk hhost hs hpos] at h
      obtain ⟨c, -, s1, ha, hh, rfl⟩ | ⟨r, hr, rfl⟩ := frmChunk_enabled_cases hs hpos h
      · exact .inr (.inr (.inl ⟨hs, c, s1, ha, hh, rfl⟩))
      · exact .inr (.inr (.inr ⟨hs, r, hr, rfl⟩))
  · rw [step_of_waiting hhost hs] at h
    cases h
    exact .inl ⟨hs, rfl⟩

/-- A block left alone stays so, and keeps its buffer (R12, R96). -/
theorem step_quiet_frame (hhost : s.host = []) (h : step s = .next t) : t.host = [] ∧ SameBuffer s t := by
  obtain ⟨-, rfl⟩ | ⟨-, rfl⟩ | ⟨-, c, s1, ha, hh, rfl⟩ | ⟨-, r, -, rfl⟩ := step_quiet_cases hhost h
  · exact ⟨hhost, rfl, rfl⟩
  · exact ⟨hhost, rfl, rfl⟩
  · exact ⟨hh.trans hhost, .of_arch (t := s1) ha⟩
  · exact ⟨hhost, rfl, rfl⟩

end

/-- Settles O55, by induction on the bytes left: a step that does not end the parse passes 12 of them or more. -/
theorem parseEndsWithinTheBound : Obligations.ParseEndsWithinTheBound := by
  intro s hi hs hhost
  induction hrem : s.rem using Nat.strong_induction_on generalizing s with
  | _ n ih =>
    subst hrem
    obtain ⟨t, ht⟩ := noStepStopsTheMachine s hi
    have hlast : after 1 s = some t := after_succ_of_step ht
    obtain ⟨hnot, -⟩ | ⟨-, rfl⟩ | ⟨-, c, s1, -, -, rfl⟩ | ⟨-, r, ⟨-, hle, -⟩, rfl⟩ := step_quiet_cases hhost ht
    · exact absurd hs hnot
    · exact ⟨1, _, by omega, hlast, (State.done_iff _).mpr (.inl rfl)⟩
    · exact ⟨1, _, by omega, hlast, (State.done_iff _).mpr (.inr rfl)⟩
    · have hrest : (appendedState Config.current s r).rem + (12 + r.length.toNat) = s.rem := by
        simp only [State.rem, appendedState_bufLen, appendedState_cursor] at hle ⊢
        omega
      obtain ⟨k, u, hk, hafter, hdone⟩ :=
        ih _ (by omega) _ (stepKeepsTheInvariant s _ hi ht) hs hhost rfl
      exact ⟨k + 1, u, by omega, (after_succ_of_step ht).trans hafter, hdone⟩

/-! A whole run: load, start, and the block left alone -/

theorem step_loadAndStart (bytes : List Byte) :
    step (loadAndStart bytes) = .next ((State.reset.loadBytes bytes).setHost [some .start]) := rfl

theorem step_loaded (bytes : List Byte) :
    step ((State.reset.loadBytes bytes).setHost [some .start]) = sigCheck (State.reset.loadBytes bytes) :=
  execHostStart_eq_sigCheck (State.reset.loadBytes bytes)

/-- After the start nothing of the host's is to come, and the buffer is what was loaded. -/
def Loaded (bytes : List Byte) (s : State) : Prop := s.host = [] ∧ SameBuffer (State.reset.loadBytes bytes) s

theorem Loaded.step {bytes : List Byte} {s t : State} (h : Loaded bytes s) (hstep : step s = .next t) :
    Loaded bytes t := by
  obtain ⟨hhost, hbuf, hlen⟩ := h
  obtain ⟨hhost', hbuf', hlen'⟩ := step_quiet_frame hhost hstep
  exact ⟨hhost', hbuf'.trans hbuf, hlen'.trans hlen⟩

theorem loaded_of_sigCheck {bytes : List Byte} {t : State} (h : sigCheck (State.reset.loadBytes bytes) = .next t) :
    Loaded bytes t := by
  obtain ⟨-, rfl⟩ | ⟨-, rfl⟩ | ⟨-, -, -, rfl⟩ := sigCheck_cases h
  · exact ⟨rfl, rfl, rfl⟩
  · exact ⟨rfl, rfl, rfl⟩
  · exact ⟨rfl, rfl, rfl⟩

/-- A run that has left `Unparsed` holds the bytes it was given. -/
theorem loaded_of_after {bytes : List Byte} {k : Nat} {t : State} (h : after k (loadAndStart bytes) = some t)
    (ht : t.state ≠ .unparsed) : Loaded bytes t := by
  match k, h with
  | 0, h => cases h; exact absurd rfl ht
  | 1, h =>
    rw [after_succ_of_step (step_loadAndStart bytes)] at h
    cases h
    exact absurd rfl ht
  | k + 2, h =>
    rw [after_succ_of_step (step_loadAndStart bytes)] at h
    obtain ⟨u, hstart, hrun⟩ := step_of_after_succ h
    rw [step_loaded] at hstart
    exact after_induction (fun _ _ hs hstep => hs.step hstep) (loaded_of_sigCheck hstart) hrun

/-- What every step keeps: the invariant, the round trip so far, the shape of the records. -/
def Kept (s : State) : Prop := Inv s ∧ RoundTrip s ∧ RecordsOk s

theorem Kept.step {s t : State} (h : Kept s) (hstep : step s = .next t) : Kept t := by
  obtain ⟨hi, hround, hrecords⟩ := h
  exact ⟨stepKeepsTheInvariant s t hi hstep, stepKeepsTheRoundTrip s t hi hround hstep,
    stepKeepsTheRecords s t hrecords hstep⟩

/-- None of it reads the host's list, so what holds at reset holds before the load. -/
theorem kept_loadAndStart (bytes : List Byte) : Kept (loadAndStart bytes) := by
  obtain ⟨hi, hround, hrecords, -⟩ := invariantsHoldAtReset
  exact ⟨hi, hround, hrecords⟩

/-- Settles O54: in `Parsed` the cursor is the end of the loaded buffer, so what has been consumed is all of it. -/
theorem parsedRunRoundTrips : Obligations.ParsedRunRoundTrips := by
  intro bytes k t hafter ht
  obtain ⟨hi, hround, hrecords⟩ := after_induction (fun _ _ hs hstep => hs.step hstep) (kept_loadAndStart bytes) hafter
  obtain ⟨-, hbuf, hlen⟩ := loaded_of_after hafter (by simp [ht])
  obtain ⟨⟨-, -, hcount, -⟩, hend⟩ := hi.cursor_of_parsed ht
  have hcursor : t.cursor = bytes.length := hend.trans hlen
  refine ⟨?_, fun r hr => ?_, hcount, hcursor⟩
  · have hconsumed := hround (.inr ht)
    rwa [hbuf, State.loadBytes_buf, Memory.bytes_ofBytes, hcursor, List.take_length] at hconsumed
  · obtain ⟨-, hpayload, -⟩ := hrecords r hr
    exact hpayload

/-- A chunk this hardware decodes: its tag a case variant of "IHDR", its payload as long as its length says. -/
def IsHeaderChunk (r : Record) : Prop :=
  r.typeTag.key = Config.keyIhdr ∧ 13 ≤ r.payload.length ∧ r.payload.length = r.length.toNat

/-- A step at a header chunk appends its record and leaves what follows (R99). -/
theorem step_headerChunk {s : State} {r : Record} {rest : List Byte} (hr : IsHeaderChunk r) (hs : s.state = .parsing)
    (hhost : s.host = []) (hb : BufExact s) (hahead : s.remaining = encodeRecord r ++ rest) :
    ∃ u, step s = .next u ∧ u.state = .parsing ∧ u.host = [] ∧ BufExact u ∧ u.remaining = rest ∧
      u.faultCode = s.faultCode ∧ u.chunkCount = s.chunkCount + 1 ∧
      u.chunks = s.chunks ++ [headerOf r.typeTag r.length r.payload r.storedChecksum] := by
  obtain ⟨hkey, hlong, hlen⟩ := hr
  have hsize : (encodeRecord r).length = 12 + r.length.toNat := by rw [encodeRecord, encodeChunk_length, hlen]
  have hpos : 0 < s.rem := by
    rw [← remaining_length hb, hahead, List.length_append]
    omega
  have hchunk := chunkStepAppendsTheRecord s r.typeTag r.length r.payload r.storedChecksum hs hb
    ⟨hlen, rest, hahead⟩ hkey hlong
  have hrest : s.buf.bytes.drop (s.cursor + 12 + r.length.toNat) = rest := by
    rw [Nat.add_assoc, ← List.drop_drop, ← hsize]
    exact (congrArg (List.drop _) hahead).trans List.drop_left
  exact ⟨_, (step_eq_frmChunk hhost hs hpos).trans hchunk, hs, hhost, hb, hrest, rfl, rfl, rfl⟩

/-- A parse with header chunks left, and nothing else, takes one step a chunk and one to end (R99, R100). -/
theorem after_headerChunks (rs : List Record) :
    ∀ s : State, (∀ r ∈ rs, IsHeaderChunk r) → s.state = .parsing → s.host = [] → BufExact s →
      s.remaining = rs.flatMap encodeRecord →
      ∃ t, after (rs.length + 1) s = some t ∧ t.state = .parsed ∧ t.faultCode = s.faultCode ∧
        t.chunkCount = s.chunkCount + rs.length ∧
        t.chunks = s.chunks ++ rs.map (fun r => headerOf r.typeTag r.length r.payload r.storedChecksum) := by
  induction rs with
  | nil =>
    intro s _ hs hhost hb hremaining
    have hrem : s.rem = 0 := by
      rw [← remaining_length hb, hremaining]
      rfl
    exact ⟨_, after_succ_of_step (step_of_end hhost hs hrem), rfl, rfl, rfl, (List.append_nil _).symm⟩
  | cons r rs ih =>
    intro s hrs hs hhost hb hremaining
    obtain ⟨hr, hrs⟩ := List.forall_mem_cons.mp hrs
    obtain ⟨u, hstep, hu, hhostu, hbu, hrest, hcodeu, hcountu, hchunksu⟩ :=
      step_headerChunk hr hs hhost hb hremaining
    obtain ⟨t, hafter, ht, hcode, hcount, hchunks⟩ := ih u hrs hu hhostu hbu hrest
    refine ⟨t, (after_succ_of_step hstep).trans hafter, ht, hcode.trans hcodeu, ?_, ?_⟩
    · rw [hcount, hcountu, List.length_cons]
      omega
    · rw [hchunks, hchunksu, List.append_assoc]
      rfl

/-- The state after the start of an accepted input (R97). -/
def startedState (bytes : List Byte) : State := { State.reset.loadBytes bytes with cursor := 8, state := .parsing }

theorem step_loaded_of_sig (rest : List Byte) :
    step ((State.reset.loadBytes (Config.sig ++ rest)).setHost [some .start]) =
      .next (startedState (Config.sig ++ rest)) := by
  have htake : (State.reset.loadBytes (Config.sig ++ rest)).buf.bytes.take 8 = Config.sig :=
    congrArg (List.take 8) (Memory.bytes_ofBytes (Config.sig ++ rest))
  rw [step_loaded, sigCheck_eq rfl (State.reset.loadBytes_bufExact _), if_pos htake]
  rfl

theorem startedState_remaining (rest : List Byte) : (startedState (Config.sig ++ rest)).remaining = rest :=
  congrArg (List.drop 8) (Memory.bytes_ofBytes (Config.sig ++ rest))

/-- Settles O58: the load and the start leave a parse with the header chunks left and nothing appended. -/
theorem headerChunksAreParsed : Obligations.HeaderChunksAreParsed := by
  intro rs hrs
  obtain ⟨t, hafter, ht, hcode, hcount, hchunks⟩ := after_headerChunks rs (startedState _) hrs rfl rfl
    (State.reset.loadBytes_bufExact _) (startedState_remaining (rs.flatMap encodeRecord))
  refine ⟨t, ?_, ht, hcode, hcount.trans (Nat.zero_add _), hchunks⟩
  rw [after_succ_of_step (step_loadAndStart _), after_succ_of_step (step_loaded_of_sig _)]
  exact hafter

end Sys2Proof.Machine
end

section
/-!
PROOFS. The byte-serial refinement (R105): each phase consumes its field's bytes and leaves the field in its hidden
register, so after the last byte the iteration ends as the chunk step does.
-/

namespace Sys2Proof.Machine

/-! Four bytes shifted in are a big-endian word -/

theorem exists_be32Bytes (w : Word) :
    ∃ b0 b1 b2 b3, w = be32 b0 b1 b2 b3 ∧ be32Bytes w = [b0, b1, b2, b3] := by
  have hw := be32List_be32Bytes w
  exact ⟨_, _, _, _, (Option.some.inj hw).symm, rfl⟩

theorem shiftIn_four (w : Word) (b0 b1 b2 b3 : Byte) :
    shiftIn (shiftIn (shiftIn (shiftIn w 0 b0) 1 b1) 2 b2) 3 b3 = be32 b0 b1 b2 b3 := by
  rw [be32_eq_append]
  apply BitVec.eq_of_getLsbD_eq
  intro i hi
  simp only [shiftIn, if_true, if_false, one_ne_zero, OfNat.ofNat_ne_zero, BitVec.getLsbD_append, BitVec.getLsbD_or,
    BitVec.getLsbD_shiftLeft, BitVec.getLsbD_setWidth]
  -- Bit `i` lies in one byte; every other byte is shifted past it or ends below it.
  obtain h | h | h | h : i < 8 ∨ (8 ≤ i ∧ i < 16) ∨ (16 ≤ i ∧ i < 24) ∨ 24 ≤ i := by omega
  all_goals grind

theorem setTagByte_four (tag t : Tag) :
    setTagByte (setTagByte (setTagByte (setTagByte tag 0 t.t0) 1 t.t1) 2 t.t2) 3 t.t3 = t := rfl

/-! One byte at a time over an exact buffer -/

section
variable {cfg : Config} {s : State} {n a : Nat} {len scrc crcReg : Word} {tag : Tag} {payload later : List Byte}

theorem readByte_eq (hb : BufExact s) (offset : Nat) : readByte s offset = s.buf.bytes[offset]? := by
  unfold readByte
  split
  · exact hb.read offset
  · next hge =>
    rw [List.getElem?_eq_none]
    rw [hb.length]
    exact Nat.le_of_not_lt hge

/-- The bytes from an offset on are what the micro-steps there consume. -/
theorem readByte_add (hb : BufExact s) (a k : Nat) : readByte s (a + k) = (s.buf.bytes.drop a)[k]? := by
  rw [readByte_eq hb, List.getElem?_drop]

/-- Four bytes ahead are read one after the other. -/
theorem readByte_four (hb : BufExact s) {b0 b1 b2 b3 : Byte}
    (h : s.buf.bytes.drop a = [b0, b1, b2, b3] ++ later) :
    readByte s a = some b0 ∧ readByte s (a + 1) = some b1 ∧ readByte s (a + 2) = some b2 ∧
      readByte s (a + 3) = some b3 := by
  have hread (k : Nat) : readByte s (a + k) = ([b0, b1, b2, b3] ++ later)[k]? := by rw [readByte_add hb, h]
  exact ⟨hread 0, hread 1, hread 2, hread 3⟩

theorem serialRun_ended (n : Nat) (o : Host.Outcome State Fault Refusal) : serialRun cfg s n (.ended o) = some o := by
  cases n <;> rfl

/-- The length phase. -/
theorem serialRun_len (hb : BufExact s) {w : Word} (h : s.buf.bytes.drop a = be32Bytes w ++ later) :
    serialRun cfg s (n + 4) (.running ⟨.pLen, 0, a, len, tag, scrc, crcReg, payload⟩) =
      serialRun cfg s n (.running ⟨.pType, 0, a + 4, w, tag, scrc, crcReg, payload⟩) := by
  obtain ⟨b0, b1, b2, b3, rfl, hbytes⟩ := exists_be32Bytes w
  rw [hbytes] at h
  obtain ⟨h0, h1, h2, h3⟩ := readByte_four hb h
  rw [← shiftIn_four len]
  simp [serialRun, microStep, microLen, h0, h1, h2, h3]

/-- The two tests after the fourth tag byte (R99 (b), (c)), with that byte taken. -/
def afterType (cfg : Config) (s : State) (m : Micro) : MicroOutcome :=
  if tagValid cfg.tagCharset m.tag then
    if s.rem < Config.chunkOverhead + m.len.toNat then .ended (.next (raise .truncatedChunk (m.leave s)))
    else .running { m with phase := if m.len.toNat = 0 then .pCrc else .pPay, k := 0 }
  else .ended (.next (raise .invalidTypeTag (m.leave s)))

/-- The tag phase: the tag's four bytes have gone into the engine. -/
theorem serialRun_type (hb : BufExact s) {t : Tag} (h : s.buf.bytes.drop a = t.bytes ++ later) :
    serialRun cfg s (n + 4) (.running ⟨.pType, 0, a, len, tag, scrc, crcReg, payload⟩) =
      serialRun cfg s n (afterType cfg s
        ⟨.pType, 3, a + 4, len, t, scrc, crcBlock t.bytes Config.crcPoly Config.crcInit, payload⟩) := by
  obtain ⟨h0, h1, h2, h3⟩ := readByte_four hb h
  simp [serialRun, microStep, microType, afterType, setTagByte_four, Tag.bytes, crcBlock, h0, h1, h2, h3]

/-- The payload phase, from its `k`-th byte on, by induction on the bytes left. -/
theorem serialRun_payload (hb : BufExact s) {k : Nat} (b : Byte) (bs : List Byte)
    (hlen : k + (b :: bs).length = len.toNat) (h : s.buf.bytes.drop a = b :: bs ++ later) :
    serialRun cfg s (n + (b :: bs).length) (.running ⟨.pPay, k, a, len, tag, scrc, crcReg, payload⟩) =
      serialRun cfg s n (.running ⟨.pCrc, 0, a + (b :: bs).length, len, tag, scrc,
        crcBlock (b :: bs) Config.crcPoly crcReg, payload ++ b :: bs⟩) := by
  induction bs generalizing b k a crcReg payload with
  | nil =>
    have hread : readByte s a = some b := by rw [← Nat.add_zero a, readByte_add hb, h]; rfl
    have hlast : k + 1 = len.toNat := hlen
    simp only [List.length_cons, List.length_nil, serialRun, microStep, microPay, hread, if_pos hlast]
    rfl
  | cons b' bs ih =>
    have hread : readByte s a = some b := by rw [← Nat.add_zero a, readByte_add hb, h]; rfl
    have hmore : k + 1 ≠ len.toNat := by simp only [List.length_cons] at hlen; omega
    have hnext : s.buf.bytes.drop (a + 1) = b' :: bs ++ later := by rw [← List.drop_drop, h]; rfl
    have hfirst : serialRun cfg s (n + (b :: b' :: bs).length)
        (.running ⟨.pPay, k, a, len, tag, scrc, crcReg, payload⟩) =
        serialRun cfg s (n + (b' :: bs).length) (.running ⟨.pPay, k + 1, a + 1, len, tag, scrc,
          crcByte crcReg b Config.crcPoly, payload ++ [b]⟩) := by
      rw [List.length_cons, ← Nat.add_assoc]
      simp only [serialRun, microStep, microPay, hread, if_neg hmore]
    rw [hfirst, ih b' (by simp only [List.length_cons] at hlen ⊢; omega) hnext, List.append_assoc, Nat.add_assoc,
      Nat.add_comm 1]
    rfl

/-- A payload of any length, none included: the phase it starts in is the one `afterType` chose. -/
theorem serialRun_payload_any (hb : BufExact s) {bs : List Byte} (hlen : bs.length = len.toNat)
    (h : s.buf.bytes.drop a = bs ++ later) :
    serialRun cfg s (n + bs.length)
        (.running ⟨if len.toNat = 0 then .pCrc else .pPay, 0, a, len, tag, scrc, crcReg, []⟩) =
      serialRun cfg s n
        (.running ⟨.pCrc, 0, a + bs.length, len, tag, scrc, crcBlock bs Config.crcPoly crcReg, bs⟩) := by
  cases bs with
  | nil =>
    have hnone : len.toNat = 0 := hlen.symm
    rw [if_pos hnone]
    rfl
  | cons b bs =>
    have hsome : len.toNat ≠ 0 := by simp only [List.length_cons] at hlen; omega
    rw [if_neg hsome]
    exact serialRun_payload hb b bs (by omega) h

/-- The checksum phase ends the iteration. -/
theorem serialRun_crc (hb : BufExact s) {w : Word} (h : s.buf.bytes.drop a = be32Bytes w ++ later) :
    serialRun cfg s (n + 4) (.running ⟨.pCrc, 0, a, len, tag, scrc, crcReg, payload⟩) =
      some (.next (serialFinish cfg s ⟨.pCrc, 3, a + 4, len, tag, w, crcReg, payload⟩)) := by
  obtain ⟨b0, b1, b2, b3, rfl, hbytes⟩ := exists_be32Bytes w
  rw [hbytes] at h
  obtain ⟨h0, h1, h2, h3⟩ := readByte_four hb h
  rw [← shiftIn_four scrc, ← serialRun_ended (cfg := cfg) (s := s) n]
  simp [serialRun, microStep, microCrc, h0, h1, h2, h3]

/-- Payload and stored checksum, the engine having taken the tag: it then holds the raw checksum (R82). -/
theorem serialRun_tail (hb : BufExact s) {rest : List Byte} {w : Word} (hlen : payload.length = len.toNat)
    (h : s.buf.bytes.drop a = payload ++ be32Bytes w ++ rest) :
    ∃ fine, serialRun cfg s (payload ++ be32Bytes w ++ rest).length
        (.running ⟨if len.toNat = 0 then .pCrc else .pPay, 0, a, len, tag, scrc,
          crcBlock tag.bytes Config.crcPoly Config.crcInit, []⟩) =
      some (.next (serialFinish cfg s ⟨.pCrc, 3, fine, len, tag, w, rawChecksum tag payload, payload⟩)) := by
  have hfuel : (payload ++ be32Bytes w ++ rest).length = rest.length + 4 + payload.length := by
    simp only [List.length_append, be32Bytes_length]
    omega
  rw [List.append_assoc] at h
  have hcrc : s.buf.bytes.drop (a + payload.length) = be32Bytes w ++ rest := by
    rw [← List.drop_drop, h, List.drop_left]
  refine ⟨a + payload.length + 4, ?_⟩
  rw [hfuel, serialRun_payload_any hb hlen h, serialRun_crc hb hcrc, rawChecksum, crcBlock_append]

/-- The failure transition reads the architectural state alone (R119). -/
theorem raise_arch_congr (c : Condition) {s1 s2 : State} (h : s1.arch = s2.arch) :
    (raise c s1).arch = (raise c s2).arch := by
  simp only [State.arch, Arch.mk.injEq] at h
  simp [State.arch, h]

/-- With the engine's output over tag and payload in its register, the end of an iteration is dispatch and append
(R99 (e), (f)). -/
theorem serialFinish_arch (hs : s.state = .parsing) {m : Micro} (hcrc : m.crcReg = rawChecksum m.tag m.payload) :
    (serialFinish cfg s m).arch =
      (acceptRecord (recDispatch cfg m.tag m.len m.payload m.scrc (s.setHead m.len m.tag))).arch := by
  have hsum : maskChecksum cfg m.crcReg = computedChecksum cfg m.tag m.payload := by rw [hcrc]; rfl
  rw [serialFinish, hsum]
  obtain ⟨r, hr, he⟩ | ⟨c, s1, hc, ha, -, -, -, he⟩ :=
    acceptRecord_cases cfg m.tag m.len m.payload m.scrc (s := s.setHead m.len m.tag) hs
  · rw [hr, he]
    rfl
  · rw [hc, he]
    exact raise_arch_congr c ha.symm

/-- Twelve bytes or more: the length and tag phases, and the two tests after them. -/
theorem serialChunk_eq_afterType (hs : s.state = .parsing) (hb : BufExact s) (h12 : 12 ≤ s.rem)
    (hhead : s.remaining = be32Bytes len ++ tag.bytes ++ later) :
    serialChunk Config.current s s.rem = serialRun Config.current s later.length
      (afterType Config.current s
        ⟨.pType, 3, s.cursor + 4 + 4, len, tag, 0, crcBlock tag.bytes Config.crcPoly Config.crcInit, []⟩) := by
  have hstart : serialStart Config.current s = .running ⟨.pLen, 0, s.cursor, 0, ⟨0, 0, 0, 0⟩, 0, 0, []⟩ := by
    rw [serialStart, if_pos ⟨hs, by omega⟩, if_neg (not_full_current _),
      if_neg (show ¬ s.rem < Config.chunkOverhead from Nat.not_lt.mpr h12)]
  obtain ⟨-, -, hrem⟩ := readHead hb hhead
  have hlen : s.buf.bytes.drop s.cursor = be32Bytes len ++ (tag.bytes ++ later) := by
    rw [← List.append_assoc]
    exact hhead
  have htype : s.buf.bytes.drop (s.cursor + 4) = tag.bytes ++ later := by
    rw [← List.drop_drop, hlen]
    rfl
  rw [serialChunk, hstart, show s.rem = later.length + 4 + 4 by omega, serialRun_len hb hlen,
    serialRun_type hb htype]

theorem serialChunk_of_few (hs : s.state = .parsing) (hpos : 0 < s.rem) (h12 : s.rem < 12) (n : Nat) :
    serialChunk Config.current s n = some (.next (failedState .truncatedChunk s)) := by
  rw [serialChunk, serialStart, if_pos ⟨hs, hpos⟩, if_neg (not_full_current _),
    if_pos (show s.rem < Config.chunkOverhead from h12),
    serialRun_ended]
  rfl

end

/-- Settles O57, test by test: up to each the serial step has read what the chunk step has, and its end is the chunk
step's. -/
theorem serialReachesTheSameEndState : Obligations.SerialReachesTheSameEndState := by
  intro s hi hs hpos
  have hb := hi.bufExact
  obtain hfew | h12 := Nat.lt_or_ge s.rem 12
  · exact ⟨_, _, serialChunk_of_few hs hpos hfew _, frmChunk_of_few hs hpos hfew, rfl⟩
  obtain ⟨length, tag, later, hhead⟩ := exists_head hb h12
  have hexec : exec .frmChunk s = chunkBody Config.current length tag (s.setHead length tag) :=
    frmChunk_eq_chunkBody hs hb h12 hhead
  rw [serialChunk_eq_afterType hs hb h12 hhead, hexec, afterType]
  by_cases hvalid : tagValid Config.current.tagCharset tag = true
  · rw [if_pos hvalid]
    by_cases hshort : s.rem < 12 + length.toNat
    · rw [if_pos (show s.rem < Config.chunkOverhead + length.toNat from hshort), serialRun_ended]
      exact ⟨_, _, rfl, chunkBody_of_short hvalid hshort, rfl⟩
    · rw [if_neg (show ¬ s.rem < Config.chunkOverhead + length.toNat from hshort)]
      obtain ⟨payload, checksum, rest, hlen, rfl⟩ := exists_tail hb hhead (Nat.le_of_not_lt hshort)
      have htail : s.buf.bytes.drop (s.cursor + 4 + 4) = payload ++ be32Bytes checksum ++ rest := by
        rw [Nat.add_assoc, ← List.drop_drop]
        exact congrArg (List.drop 8) hhead
      obtain ⟨fine, hrun⟩ := serialRun_tail (cfg := Config.current) (tag := tag) (scrc := 0) hb hlen htail
      exact ⟨_, _, hrun, chunkBody_of_complete hb hvalid hlen hhead, serialFinish_arch hs rfl⟩
  · rw [if_neg hvalid, serialRun_ended]
    exact ⟨_, _, rfl, chunkBody_of_invalid hs (Bool.eq_false_iff.mpr hvalid), rfl⟩

end Sys2Proof.Machine
end

section
/-!
PROOFS. The conditions and the failure transition (`60_exceptions.md`): what raises one, what the transition leaves,
that nothing but a reset leaves a terminal state, and that nothing outlives a reset.
-/

namespace Sys2Proof.Machine

/-! The conditions of a chunk (R121, R122, R127) -/

/-- Settles O26: a byte of 0x80 or above makes the tag invalid, and the step is in `Parsing`. -/
theorem invalidTagRaises : Obligations.InvalidTagRaises :=
  fun tag _ hbad hs =>
    congrArg Host.Outcome.next (tagInvalid_of_invalid hs ((tagValid_current_eq_false_iff tag).mpr hbad))

/-- What a complete chunk makes of `STATE`, `FAULT_CODE` and `CURSOR`: a function of its tag, its length and what the
two registers held (R124). -/
def parseAfterChunk (tag : Tag) (length : Word) (code : Option Condition) (cursor : Nat) :
    FramerState × Option Condition × Nat :=
  if ∃ b ∈ tag.bytes, 0x80 ≤ b.toNat then (.failed, some .invalidTypeTag, cursor)
  else if tag.key ≠ Config.keyIhdr then (.failed, some .unknownChunkType, cursor)
  else if length.toNat < 13 then (.failed, some .malformedHeaderChunk, cursor)
  else (.parsing, code, cursor + (12 + length.toNat))

/-- The registers of the parse after a failure transition (R119). -/
theorem parse_of_arch_eq_failedState {c : Condition} {s t : State} (h : t.arch = (failedState c s).arch) :
    (t.state, t.faultCode, t.cursor) = (.failed, some c, s.cursor) :=
  congrArg (fun a : Arch => (a.state, a.faultCode, a.cursor)) h

/-- A complete chunk has its length and tag at `CURSOR`, and its bytes are all there (R47, R53). -/
theorem ChunkAhead.head {s : State} {tag : Tag} {length checksum : Word} {payload : List Byte}
    (h : ChunkAhead s tag length payload checksum) (hb : BufExact s) :
    12 + length.toNat ≤ s.rem ∧ ∃ later, s.remaining = be32Bytes length ++ tag.bytes ++ later := by
  obtain ⟨hlen, rest, hrem⟩ := h
  refine ⟨?_, payload ++ be32Bytes checksum ++ rest, by simp only [hrem, encodeChunk, List.append_assoc]⟩
  rw [← remaining_length hb, hrem, List.length_append, encodeChunk_length, hlen]
  exact Nat.le_add_right _ _

/-- A step at a complete chunk does not depend on the stored checksum in what it makes of the parse (R127). -/
theorem exec_frmChunk_of_chunkAhead {s : State} {tag : Tag} {length checksum : Word} {payload : List Byte}
    (hs : s.state = .parsing) (hb : BufExact s) (hahead : ChunkAhead s tag length payload checksum) :
    ∃ t, exec .frmChunk s = .next t ∧
      (t.state, t.faultCode, t.cursor) = parseAfterChunk tag length s.faultCode s.cursor := by
  obtain ⟨hcomplete, later, hhead⟩ := hahead.head hb
  obtain ⟨-, hconditions⟩ := chunkConditionsInOrder s hs hb (by omega)
  obtain ⟨t, hstep, ht⟩ := hconditions length tag later (by omega) hhead
  rw [if_neg (Nat.not_lt.mpr hcomplete)] at ht
  refine ⟨t, hstep, ?_⟩
  unfold parseAfterChunk
  split_ifs at ht ⊢
  · exact parse_of_arch_eq_failedState ht
  · exact parse_of_arch_eq_failedState ht
  · exact parse_of_arch_eq_failedState ht
  · obtain ⟨hstate, hcode, hcursor, -⟩ := ht
    rw [hstate, hcode, hcursor]

/-- Settles O31: each step makes of the parse what the tag, the length, the cursor and the code determine. -/
theorem storedChecksumDecidesNothing : Obligations.StoredChecksumDecidesNothing := by
  intro s s' tag length payload checksum checksum' hs hs' hb hb' hahead hahead' hcursor hcode
  obtain ⟨t, hstep, ht⟩ := exec_frmChunk_of_chunkAhead hs hb hahead
  obtain ⟨t', hstep', ht'⟩ := exec_frmChunk_of_chunkAhead hs' hb' hahead'
  rw [hcursor, hcode, ← ht', Prod.mk.injEq, Prod.mk.injEq] at ht
  exact ⟨t, t', hstep, hstep', ht⟩

/-! What the decoder rejects (R59, R121) -/

theorem decodeChunk_of_few {cfg : Config} {bytes : List Byte} (h : bytes.length < 12) :
    decodeChunk cfg bytes = .reject .truncatedChunk :=
  if_pos h

/-- Past the length and the tag only a valid tag is rejected, as truncated (R121, R124). -/
theorem decodeBody_reject {cfg : Config} {len : Word} {tag : Tag} {later : List Byte} {c : Condition}
    (h : decodeBody cfg len tag later = .reject c) : classify cfg tag ≠ .invalid ∧ c = .truncatedChunk := by
  unfold decodeBody at h
  split at h
  · cases h
  · next hc =>
    dsimp only at h
    split at h
    · cases h
    · cases h
      exact ⟨hc, rfl⟩

/-- No bytes left are not rejected: they are the end of the stream (R100). -/
theorem decode_parsing_reject {cfg : Config} {bytes : List Byte} {c : Condition}
    (h : decode cfg .parsing bytes = .reject c) : 0 < bytes.length ∧ decodeChunk cfg bytes = .reject c := by
  cases bytes with
  | nil => cases h
  | cons b bs => exact ⟨Nat.succ_pos _, h⟩

/-- Rejected past the length and the tag, a chunk is shorter than its length says (R121). -/
theorem rem_lt_of_decodeBody_reject {cfg : Config} {s : State} {len : Word} {tag : Tag} {later : List Byte}
    {c : Condition} (hb : BufExact s) (hhead : s.remaining = be32Bytes len ++ tag.bytes ++ later)
    (h : decodeBody cfg len tag later = .reject c) : s.rem < 12 + len.toNat := by
  by_contra hlong
  obtain ⟨payload, crc, rest, hlen, rfl⟩ := exists_tail hb hhead (Nat.le_of_not_lt hlong)
  obtain ⟨hc, -⟩ := decodeBody_reject h
  rw [decodeBody_complete cfg len tag payload crc rest hlen hc] at h
  cases h

/-- Settles O47: what is rejected has fewer than 12 bytes, or a valid tag and fewer bytes than its length says. -/
theorem rejectedElementIsTruncated : Obligations.RejectedElementIsTruncated := by
  intro s c hhost hs hb hdec
  obtain ⟨hpos, hchunk⟩ := decode_parsing_reject hdec
  rw [remaining_length hb] at hpos
  rw [step_eq_frmChunk hhost hs hpos]
  by_cases h12 : s.rem < 12
  · rw [decodeChunk_of_few (by rwa [remaining_length hb])] at hchunk
    cases hchunk
    exact ⟨rfl, _, frmChunk_of_few hs hpos h12, rfl⟩
  · obtain ⟨len, tag, later, hhead⟩ := exists_head hb (Nat.le_of_not_lt h12)
    obtain ⟨-, -, hbytes⟩ := readHead hb hhead
    rw [hhead, decodeChunk_eq _ len tag later (by omega)] at hchunk
    have hshort := rem_lt_of_decodeBody_reject hb hhead hchunk
    obtain ⟨hc, rfl⟩ := decodeBody_reject hchunk
    exact ⟨rfl, _, (frmChunk_eq_chunkBody hs hb (Nat.le_of_not_lt h12) hhead).trans
      (chunkBody_of_short (tagValid_of_classify hc) hshort), rfl⟩

/-! Entering and leaving the terminal states (R119, R126) -/

/-- The effects that enter `Failed` are the failure transitions (R119). -/
theorem Effect.eq_failedState {cfg : Config} {s : State} {a : Arch} (h : Effect cfg s a) (hs : s.state ≠ .failed)
    (ha : a.state = .failed) : ∃ c, a = (failedState c s).arch ∧ (c = .badSignature ↔ s.state = .unparsed) := by
  cases h with
  | nothing => exact absurd ha hs
  | badSignature hunparsed => exact ⟨.badSignature, rfl, iff_of_true rfl hunparsed⟩
  | chunkFails c hparsing hc => exact ⟨c, rfl, iff_of_false hc (by simp [hparsing])⟩
  | begins => cases ha
  | appends => exact absurd ha hs
  | ends => cases ha
  | resets => cases ha
  | loads => exact absurd ha hs

/-- Settles O35: every operation is an effect. -/
theorem failureTransitionIsOne : Obligations.FailureTransitionIsOne :=
  fun i s t hexec hs ht => (exec_effect i s t hexec).eq_failedState hs ht

section
variable {s : State} (hterminal : s.state = .parsed ∨ s.state = .failed)
include hterminal

theorem state_ne_of_terminal : s.state ≠ .unparsed ∧ s.state ≠ .parsing := by
  obtain hs | hs := hterminal
  · simp [hs]
  · simp [hs]

/-- In a terminal state the one effect that changes anything is a reset (R126). -/
theorem Effect.eq_or_reset_of_terminal {cfg : Config} {a : Arch} (h : Effect cfg s a) :
    a = s.arch ∨ a = State.reset.arch := by
  obtain ⟨hunparsed, hparsing⟩ := state_ne_of_terminal hterminal
  cases h with
  | nothing => exact .inl rfl
  | resets => exact .inr rfl
  | badSignature hs => exact absurd hs hunparsed
  | begins hs => exact absurd hs hunparsed
  | loads _ hs => exact absurd hs hunparsed
  | chunkFails _ hs => exact absurd hs hparsing
  | ends hs => exact absurd hs hparsing
  | appends _ hacc =>
    obtain ⟨hs, -⟩ := hacc
    exact absurd hs hparsing

/-- In a terminal state no operation but the reset changes `STATE` (R95, R126). -/
theorem state_eq_of_terminal {i : Instr} {t : State} (hexec : exec i s = .next t) (hi : i ≠ .hostReset) :
    t.state = s.state := by
  obtain ⟨hunparsed, hparsing⟩ := state_ne_of_terminal hterminal
  by_contra hne
  obtain ⟨hreset, -⟩ | ⟨-, hs, -⟩ | ⟨hs, -⟩ | ⟨-, hs, -⟩ := onlyTheTablesTransitions i s t hexec hne
  · exact hi hreset
  · exact hunparsed hs
  · exact hparsing hs
  · exact hparsing hs

end

/-- Settles O37: an operation that keeps a terminal `STATE` is not a reset, so it changes nothing. -/
theorem onlyResetLeavesATerminalState : Obligations.OnlyResetLeavesATerminalState := by
  refine fun s hterminal => ⟨fun i t hexec hi => ?_, _, rfl, rfl⟩
  obtain hsame | hreset := Effect.eq_or_reset_of_terminal hterminal (exec_effect i s t hexec)
  · exact hsame
  · have hstate := state_eq_of_terminal hterminal hexec hi
    have hunparsed : t.state = .unparsed := congrArg Arch.state hreset
    obtain ⟨hne, -⟩ := state_ne_of_terminal hterminal
    exact absurd (hstate.symm.trans hunparsed) hne

/-! Retrying (R137) -/

/-- Runs from states that agree but for the working registers do not stop, and agree at every step (R11). -/
theorem after_agree {s s' : State} (hi : Inv s) (harch : s.arch = s'.arch) (hhost : s.host = s'.host) (k : Nat) :
    ∃ t t', after k s = some t ∧ after k s' = some t' ∧ t.arch = t'.arch := by
  induction k generalizing s s' with
  | zero => exact ⟨s, s', rfl, rfl, harch⟩
  | succ k ih =>
    obtain ⟨u, hu⟩ := noStepStopsTheMachine s hi
    obtain ⟨u₁, u', hu₁, hu', harch', hhost'⟩ | ⟨f, hf, -⟩ | ⟨r, hr, -⟩ := workingRegistersAreDead s s' harch hhost
    · rw [after_succ_of_step hu₁, after_succ_of_step hu']
      exact ih (stepKeepsTheInvariant s u₁ hi hu₁) harch' hhost'
    · cases hu.symm.trans hf
    · cases hu.symm.trans hr

theorem step_of_reset {s : State} {rest : List (Option HostEvent)} (hhost : s.host = some .reset :: rest) :
    step s = .next (resetBlock Config.current (s.setHost rest)) := by
  rw [step, hhost]
  rfl

/-- A reset state has the invariant, whatever the host has read and has yet to do (R140). -/
theorem inv_resetBlock (s : State) : Inv (resetBlock Config.current s) := by
  obtain ⟨hreset, -⟩ := invariantsHoldAtReset
  exact hreset

/-- Settles O56: the first step, the reset, leaves two states that agree in the architectural part and in the host's
list, so the load, the start and all after them do the same from both. -/
theorem retryReachesTheSameState : Obligations.RetryReachesTheSameState := by
  intro s s' bytes hhost hhost' k hk
  obtain ⟨j, rfl⟩ : ∃ j, k = j + 1 := ⟨k - 1, by omega⟩
  rw [after_succ_of_step (step_of_reset hhost), after_succ_of_step (step_of_reset (hhost'.trans hhost))]
  refine after_agree (inv_resetBlock _) ?_ ?_ j
  · rfl
  · rfl

end Sys2Proof.Machine
end

section
/-!
PROOFS. Reset and the host (`70_reset_and_hazards.md`): what `HOST.RESET` leaves, what `HOST.LOAD` puts into the
buffer, and what `HOST.READ` gives.
-/

namespace Sys2Proof.Machine

/-! Reset (R140) -/

/-- Settles O40: the answer of a reset is the reset state beside the host's own fields, and no other operation changes
a terminal `STATE`. -/
theorem resetRestoresTheResetState : Obligations.ResetRestoresTheResetState := by
  refine ⟨fun s => ?_, fun i s t hterminal hexec hne => ?_⟩
  · have hexec : exec .hostReset s = .next (resetBlock Config.current s) := rfl
    exact ⟨_, hexec, rfl, rfl, rfl, rfl, rfl, rfl, rfl, rfl, rfl, rfl⟩
  · by_contra hi
    exact hne (state_eq_of_terminal hterminal hexec hi)

/-! Loading (R143) -/

/-- This hardware's `AW` holds every count (R13), so a load in `Unparsed` is not refused. -/
theorem exec_hostLoad_of_unparsed {s : State} (hs : s.state = .unparsed) (bytes : List Byte) :
    exec (.hostLoad bytes) s = .next (s.loadBytes bytes) := by
  have hfits : Config.current.fits bytes.length = true := rfl
  change loadBuffer Config.current bytes s = _
  rw [loadBuffer, if_pos hs, if_pos hfits]

/-- A second load replaces the first (R143). -/
@[simp] theorem State.loadBytes_loadBytes (s : State) (bytes again : List Byte) :
    (s.loadBytes bytes).loadBytes again = s.loadBytes again := rfl

/-- Settles O41: the state after the load is again `Unparsed`, so a second load acts on it as on the first state. -/
theorem loadFillsTheBuffer : Obligations.LoadFillsTheBuffer := by
  intro bytes s hs
  refine ⟨s.loadBytes bytes, exec_hostLoad_of_unparsed hs bytes, rfl, Memory.wf_ofBytes bytes,
    s.loadBytes_bufExact bytes, Memory.bytes_ofBytes bytes, fun again => ?_⟩
  have hloaded : (s.loadBytes bytes).state = .unparsed := hs
  rw [exec_hostLoad_of_unparsed hloaded, exec_hostLoad_of_unparsed hs, State.loadBytes_loadBytes]

/-! Reading (R147) -/

section
variable {s : State}

theorem exec_hostRead_reg (r : RegSel) :
    exec (.hostRead (.reg r)) s = .next (s.setReadData (readReg s r)) := rfl

theorem exec_hostRead_record {index : Nat} {v : Record} (h : readRecord s index = some v) :
    exec (.hostRead (.record index)) s = .next (s.setReadData (.record v)) := by
  change Host.Outcome.next (readValue (.record index) s) = _
  simp only [readValue, h]

theorem exec_hostRead_bufByte {offset : Nat} {v : Byte} (h : readByte s offset = some v) :
    exec (.hostRead (.bufByte offset)) s = .next (s.setReadData (.byte v)) := by
  change Host.Outcome.next (readValue (.bufByte offset) s) = _
  simp only [readValue, h]

end

/-- Settles O43: a record below the number of records and a byte of an exact buffer exist, so the value read is it and
not a free one. -/
theorem readGivesTheValue : Obligations.ReadGivesTheValue := by
  intro s
  refine ⟨exec_hostRead_reg .state, exec_hostRead_reg .cursor, exec_hostRead_reg .bufLen,
    exec_hostRead_reg .chunkCount, exec_hostRead_reg .faultCode, exec_hostRead_reg .faultOffset,
    fun index hlt => ?_, fun hb offset hlt => ?_⟩
  · exact exec_hostRead_record (List.getElem?_eq_getElem hlt)
  · have hbyte : readByte s offset = some s.buf.bytes[offset] := by
      rw [readByte_eq hb, List.getElem?_eq_getElem hlt]
    exact exec_hostRead_bufByte hbyte

end Sys2Proof.Machine
end

section
/-!
PROOFS. What is left of the table: the sample words of the encoding (`30_encoding.md`), the operations and host events
that are not enabled (log entries 5 and 6), the reads of nothing (log entry 9), and which operation a step is (R96).
-/

namespace Sys2Proof

/-! The words of the opcode table (R46, R57; log entry 13) -/

theorem beBytes_four (w : Word) : beBytes 4 w.toNat = be32Bytes w := by
  simp [beBytes, be32Bytes]

theorem be32Bytes_word (t : Tag) : be32Bytes t.word = t.bytes := be32Bytes_be32 t.t0 t.t1 t.t2 t.t3

/-- A 32-bit word is the tag of a chunk whose other fields are zero or empty. -/
theorem tableWordBytes_tagWord (t : Tag) : tableWordBytes 32 t.word.toNat = encodeChunk 0 t [] 0 := by
  have hzero : beBytes 4 0 = be32Bytes 0 := beBytes_four 0
  rw [tableWordBytes, if_pos rfl, beBytes_four, be32Bytes_word, hzero, encodeChunk, List.append_nil]

/-- A 32-bit word decodes to the row its tag selects, whatever the class of the tag (R57). -/
theorem decodeTableWord_tagWord (t : Tag) :
    decodeTableWord 32 t.word.toNat = some (decodeTag Config.current t 0 [] 0) := by
  have hdecode : decode Config.current (tableWordState 32) (tableWordBytes 32 t.word.toNat) =
      .op (decodeTag Config.current t 0 [] 0) [] := by
    rw [tableWordBytes_tagWord, ← List.append_nil (encodeChunk 0 t [] 0)]
    by_cases hc : classify Config.current t = .invalid
    · rw [decodeTag, hc]
      exact decode_encodeChunk_invalid hc 0 []
    · exact decode_encodeChunk hc rfl 0 []
  rw [decodeTableWord, hdecode]
  rfl

/-- Settles O10: the signature's word is the bytes of `SIG`, each tag word selects by the class of its tag, and the chunk
with a byte after it is an encoding. The wrong signature and the two words of a chunk with an invalid tag are decoded. -/
theorem sampleWordsDecode : Obligations.SampleWordsDecode := by
  have hsig : decodeTableWord 64 0x89504E470D0A1A0A = some .frmSigchk := by
    have hbytes : tableWordBytes 64 0x89504E470D0A1A0A = Config.sig := by decide
    rw [decodeTableWord, hbytes]
    rfl
  have hihdr : classify Config.current ⟨0x49, 0x48, 0x44, 0x52⟩ = .known .header := by decide
  have hztxt : classify Config.current ⟨0x7A, 0x54, 0x58, 0x74⟩ = .unknown := by decide
  have hbad : classify Config.current ⟨0x80, 0x41, 0x42, 0x43⟩ = .invalid := by decide
  refine ⟨hsig, by decide, ?_, ?_, ?_, by decide, by decide, ?_⟩
  · exact (decodeTableWord_tagWord _).trans (congrArg some (decodeTag_of_known hihdr 0 [] 0))
  · exact (decodeTableWord_tagWord _).trans (congrArg some (decodeTag_of_unknown hztxt 0 [] 0))
  · exact (decodeTableWord_tagWord _).trans (congrArg some (by rw [decodeTag, hbad]))
  · have hvalid : classify Config.current ⟨0x7A, 0x54, 0x58, 0x74⟩ ≠ .invalid := by decide
    rw [← decodeTag_of_unknown hztxt]
    exact decode_encodeChunk hvalid (len := 1) (payload := [0xAA]) rfl 0x12345678 [0x99]

end Sys2Proof

namespace Sys2Proof.Machine

/-! The operations of a chunk outside `Parsing` (log entry 6) -/

section
variable {cfg : Config} {s : State} (hs : s.state ≠ .parsing)
include hs

/-- Outside `Parsing` there is no chunk step to fail, so a raise over changed working registers is nothing. -/
theorem raiseInChunk_arch_of_not_parsing (c : Condition) {s1 : State} (h : s1.arch = s.arch) :
    (raiseInChunk c s1).arch = s.arch := by
  have hs1 : s1.state ≠ .parsing := fun hp => hs ((congrArg Arch.state h).symm.trans hp)
  rw [raiseInChunk_other c hs1, h]

theorem tagInvalid_arch_of_not_parsing (tag : Tag) : (tagInvalid cfg tag s).arch = s.arch := by
  unfold tagInvalid
  split
  · rfl
  · exact raiseInChunk_arch_of_not_parsing hs _ rfl

theorem recIhdr_arch_of_not_parsing (tag : Tag) (length : Word) (payload : List Byte) (checksum : Word) :
    (recIhdr cfg tag length payload checksum s).arch = s.arch := by
  unfold recIhdr
  split
  · rfl
  · exact raiseInChunk_arch_of_not_parsing hs _ rfl

theorem recDispatch_arch_of_not_parsing (tag : Tag) (length : Word) (payload : List Byte) (checksum : Word) :
    (recDispatch cfg tag length payload checksum s).arch = s.arch := by
  obtain ⟨r, -, he⟩ | ⟨c, s1, -, ha, -, -, -, -, he⟩ := recDispatch_cases cfg tag length payload checksum s
  · rw [he]
    rfl
  · rw [he]
    exact raiseInChunk_arch_of_not_parsing hs c ha

theorem recIhdrDecode_arch_of_not_parsing (payload : List Byte) : (recIhdrDecode cfg payload s).arch = s.arch := by
  unfold recIhdrDecode
  split
  · rfl
  · exact raiseInChunk_arch_of_not_parsing hs _ rfl

end

/-- Settles O27: each of the four writes working registers and then at most raises, which does nothing here. -/
theorem recordOpsRaiseInParsingOnly : Obligations.RecordOpsRaiseInParsingOnly := by
  intro i s t hop hs hexec
  obtain ⟨tag, rfl⟩ | ⟨tag, length, payload, checksum, rfl⟩ | ⟨tag, length, payload, checksum, rfl⟩ | ⟨payload, rfl⟩ :=
    hop
  · cases hexec
    exact tagInvalid_arch_of_not_parsing hs tag
  · cases hexec
    exact recIhdr_arch_of_not_parsing hs tag length payload checksum
  · cases hexec
    exact recDispatch_arch_of_not_parsing hs tag length payload checksum
  · cases hexec
    exact recIhdrDecode_arch_of_not_parsing hs payload

/-! A start and a load outside `Unparsed` (D17; log entry 5) -/

theorem exec_hostStart_of_not_unparsed {s : State} (hs : s.state ≠ .unparsed) : exec .hostStart s = .next s :=
  if_neg hs

theorem exec_hostLoad_of_not_unparsed {s : State} (hs : s.state ≠ .unparsed) (bytes : List Byte) :
    exec (.hostLoad bytes) s = .next s :=
  if_neg hs

/-- Settles O42: both events test `STATE` first. -/
theorem lateStartAndLoadAreIgnored : Obligations.LateStartAndLoadAreIgnored :=
  fun bytes _ hs => ⟨exec_hostStart_of_not_unparsed hs, exec_hostLoad_of_not_unparsed hs bytes⟩

/-! Reads of nothing (log entry 9) -/

section
variable {s : State}

theorem exec_hostRead_record_of_none {index : Nat} (h : readRecord s index = none) :
    exec (.hostRead (.record index)) s = .next (giveFree (.record (Config.freeRecord s.freeIndex)) s) := by
  change Host.Outcome.next (readValue (.record index) s) = _
  simp only [readValue, h]

theorem exec_hostRead_bufByte_of_none {offset : Nat} (h : readByte s offset = none) :
    exec (.hostRead (.bufByte offset)) s = .next (giveFree (.byte (Config.freeByte s.freeIndex)) s) := by
  change Host.Outcome.next (readValue (.bufByte offset) s) = _
  simp only [readValue, h]

end

/-- Settles O44: there is no record at or beyond their number and no byte at or beyond `BUF_LEN`, so the value is the
free one. -/
theorem readOfNothingGivesSomeValue : Obligations.ReadOfNothingGivesSomeValue := by
  intro s k
  have hrecord : readRecord s (s.chunks.length + k) = none := List.getElem?_eq_none (Nat.le_add_right _ k)
  have hbyte : readByte s (s.bufLen + k) = none := if_neg (Nat.not_lt.mpr (Nat.le_add_right _ k))
  exact ⟨⟨_, exec_hostRead_record_of_none hrecord⟩, ⟨_, exec_hostRead_bufByte_of_none hbyte⟩⟩

/-! Which operation a step is (R96; log entry 4) -/

theorem step_of_event {s : State} {e : HostEvent} {rest : List (Option HostEvent)} (hhost : s.host = some e :: rest) :
    step s = exec e.toInstr (s.setHost rest) := by
  rw [step, hhost]

theorem step_of_empty_slot {s : State} {rest : List (Option HostEvent)} (hhost : s.host = none :: rest) :
    step s = blockStep (s.setHost rest) := by
  rw [step, hhost]

/-- Settles O45, by the first slot of the host's list, and where there is none by `STATE` and the bytes left. -/
theorem stepPerformsTheEnabledOperation : Obligations.StepPerformsTheEnabledOperation :=
  ⟨fun _ _ _ hhost => step_of_event hhost,
    fun _ _ hhost => step_of_empty_slot hhost,
    fun _ hhost hs hpos => step_eq_frmChunk hhost hs hpos,
    fun _ hhost hs hrem => (step_of_end hhost hs hrem).trans (exec_frmTerm_of_end hs hrem).symm,
    fun _ hhost hs => step_of_waiting hhost hs⟩

end Sys2Proof.Machine
end
